-- ==== Sys2Proof/Word.lean ====
section
/-! DEFINITION. The value types of the ports (spec/00_scope.md R4, spec/30_encoding.md R41, R43, R44). -/

namespace Sys2Proof

/-- One wire or one bit of a word, 0 or 1 (00_scope.md R6). `^^` on it is the spec's exclusive or (43_properties.md R120). -/
abbrev Bit := Bool

/-- The DataWord format: 4 bits, position 1 (d1) the most significant (30_encoding.md R41, 20_memory.md R32). -/
abbrev DataWord := BitVec 4

/-- The Codeword format: 7 bits, position 1 (r1) the most significant (30_encoding.md R43, 20_memory.md R32).
Any of the 128 values: a received word need not be a codeword (30_encoding.md R52). -/
abbrev Word7 := BitVec 7

/-- The 3-bit number on `error_pos_out`, and a position operand: 1..7 is a position, 0 stands for "none"
(30_encoding.md R44, R45, R46). -/
abbrev Pos := BitVec 3

end Sys2Proof
end

