-- ==== Sys2Proof/Config.lean ====
section
/-! DEFINITION. What the spec leaves open about the environment: the channel's draw. The one open parameter of the spec,
API_FRONT_END, is a field of State, since the spec's model takes it as an argument (log entry 3). -/

namespace Sys2Proof

/-- FREE VALUE (log entry 8). The draw of a generator seeded with n: the number k below 7 stands for position k + 1, so that
every draw is in 1..7 and nothing else is known of it (42_channel_env.md R112: "A model takes `p` as a free input of the
channel's step, under no law except `p` in 1..7"). -/
opaque Config.draw : Nat → Fin 7

end Sys2Proof
end

