-- ==== Sys2Proof/Syntax.lean ====
section
/-! DEFINITION. The four operations of spec/opcode_table.json as one inductive type, and what a host presents to have one
evaluated (spec/30_encoding.md R40, R50, R54). -/

namespace Sys2Proof

/-- A symbol of the list-level interface (60_exceptions.md R143). The spec is generic in the element type (91_not_in_source.md
N14): `other` stands for any symbol that is not 0 or 1, its code tells two such symbols apart and nothing reads it
(log entry 10). -/
inductive Symbol where
  | zero
  | one
  | other (code : Nat)
deriving DecidableEq, Repr

/-- An operand of a port `n` bits wide: the packed value on the wires of the port (10_state.md R11, R12), or the sequence of
symbols of the list-level form of the operation, of any length (30_encoding.md R53). -/
inductive Operand (n : Nat) where
  | port (v : BitVec n)
  | symbols (xs : List Symbol)
deriving DecidableEq, Repr

/-- The random source of CORRUPT: "an explicit, injectable random-source parameter passed into the corruption step"
(42_channel_env.md R117, 30_encoding.md R54), so an operand, and nothing of it is state (log entry 8). -/
inductive RandomSource where
  /-- A test's choice of the draw: the number k below 7 stands for position k + 1. -/
  | injected (k : Fin 7)
  /-- A generator whose algorithm the spec does not give (93_implementation_defined.md U2), seeded with n: its draw is the free
  value `Config.draw n`. -/
  | generator (n : Nat)
deriving DecidableEq, Repr

/-- What CORRUPT is given: the word, and beside it the random source as an explicit parameter (42_channel_env.md R110, R117). -/
structure CorruptInput where
  word : Operand 7
  rng : RandomSource
deriving DecidableEq, Repr

/-- One evaluation of an operation, with its whole operand (30_encoding.md R40, R50). One constructor per row of
spec/opcode_table.json. -/
inductive Instr where
  /-- ENC, the encoder (40_encoder.md R60). -/
  | enc (x : Operand 4)
  /-- DEC, the decoder (41_decoder.md R80). -/
  | dec (x : Operand 7)
  /-- CORRUPT_AT, the channel with the position `p` given (42_channel_env.md R111). -/
  | corruptAt (x : Operand 7) (p : Pos)
  /-- CORRUPT, the channel with the position drawn from the random source it is given (42_channel_env.md R110, R117). -/
  | corrupt (x : CorruptInput)
deriving DecidableEq, Repr

/-- The row of spec/opcode_table.json that evaluates: "the block is the opcode" (30_encoding.md R50). -/
inductive Row where
  | enc
  | dec
  | corruptAt
  | corrupt
deriving DecidableEq, Repr

/-- An operand as the host presents it, before it is read as a value of a port: that many bits packed into a number
(20_memory.md R32), or a sequence of symbols. The width is kept because a port takes exactly its own width (20_memory.md
R33). -/
inductive RawOperand where
  | packed (width w : Nat)
  | symbols (xs : List Symbol)
deriving DecidableEq, Repr

/-- The second operand of an operation: the position of CORRUPT_AT, the random source of CORRUPT, none of ENC and DEC
(30_encoding.md R50). -/
inductive SecondOperand where
  | absent
  | position (p : Nat)
  | random (rng : RandomSource)
deriving DecidableEq, Repr

/-- What stands for an instruction's words: the row that evaluates, the operand, and the second operand of the channel's rows
(spec/95_test_vectors.md section 7: the encoding of a line is "the `opcode_table.json` row that evaluates and the packed
operand value"). No bit of the operand selects the operation (30_encoding.md R50). -/
structure Request where
  row : Row
  operand : RawOperand
  second : SecondOperand
deriving DecidableEq, Repr

/-- Why a request is no instruction. Raised by `decode`, each safe: the value cannot be expressed at the block's input. -/
inductive DecodeError where
  /-- The operand has another width than the port: "exactly 4 bits into the encoder and exactly 7 bits into the decoder and the
  channel" (20_memory.md R33). -/
  | widthMismatch
  /-- The packed number does not fit the width it is given with (60_exceptions.md R142). -/
  | operandTooWide
  /-- CORRUPT_AT without its position operand (42_channel_env.md R111). -/
  | positionMissing
  /-- A position outside 1..7 "is not a value of the operand's type" (42_channel_env.md R111). -/
  | positionOutOfRange
  /-- CORRUPT without its random source (42_channel_env.md R110). -/
  | randomSourceMissing
  /-- A second operand given to an operation that has none (30_encoding.md R50). -/
  | secondNotAnOperand
deriving DecidableEq, Repr

end Sys2Proof
end

