-- ==== Sys2Proof/Machine/Operands.lean ====
section
/-! DEFINITION. Bits by position, packing, the flip of one position, distance, and the lists of symbols (spec/00_scope.md R6,
spec/20_memory.md R31, R32, spec/60_exceptions.md R143). -/

namespace Sys2Proof.Machine

/-- d[i]: the bit at position i (1..4) of a DataWord, packed bit 4 - i (20_memory.md R32). -/
def dataBit (d : DataWord) (i : Nat) : Bit := d.getLsbD (4 - i)

/-- c[p]: the bit at position p (1..7) of a word in the Codeword format, packed bit 7 - p (20_memory.md R32). -/
def codeBit (c : Word7) (p : Nat) : Bit := c.getLsbD (7 - p)

/-- pack4 of the bits at positions 1..4 (00_scope.md R6, 20_memory.md R32). -/
def pack4 (b1 b2 b3 b4 : Bit) : DataWord :=
  BitVec.ofNat 4 (8 * b1.toNat + 4 * b2.toNat + 2 * b3.toNat + b4.toNat)

/-- pack7 of the bits at positions 1..7 (00_scope.md R6, 20_memory.md R32). -/
def pack7 (b1 b2 b3 b4 b5 b6 b7 : Bit) : Word7 :=
  BitVec.ofNat 7 (64 * b1.toNat + 32 * b2.toNat + 16 * b3.toNat + 8 * b4.toNat + 4 * b5.toNat + 2 * b6.toNat + b7.toNat)

/-- The bit at position q of a word whose position p is to be complemented (42_channel_env.md R111). -/
def flippedBit (c : Word7) (p : Pos) (q : Nat) : Bit :=
  if q = p.toNat then !codeBit c q else codeBit c q

/-- flip(c, p): the word equal to `c` except at position p (00_scope.md R6, 42_channel_env.md R111). -/
def flip (c : Word7) (p : Pos) : Word7 :=
  pack7 (flippedBit c p 1) (flippedBit c p 2) (flippedBit c p 3) (flippedBit c p 4) (flippedBit c p 5) (flippedBit c p 6)
    (flippedBit c p 7)

/-- wt(a): the number of positions holding 1 (00_scope.md R6). -/
def weight (a : Word7) : Nat :=
  (codeBit a 1).toNat + (codeBit a 2).toNat + (codeBit a 3).toNat + (codeBit a 4).toNat + (codeBit a 5).toNat +
    (codeBit a 6).toNat + (codeBit a 7).toNat

/-- hd(a, b): the number of positions where `a` and `b` differ (00_scope.md R6). -/
def distance (a b : Word7) : Nat := weight (a ^^^ b)

/-- Whether a symbol is 0 or 1 (60_exceptions.md R140). -/
def isBinary : Symbol → Bool
  | .zero => true
  | .one => true
  | .other _ => false

/-- The number a symbol adds to a binary numeral; a symbol that is not binary is never packed (`readSymbols`). -/
def symbolValue : Symbol → Nat
  | .zero => 0
  | .one => 1
  | .other _ => 0

/-- A list of symbols read as a binary numeral, position 1 first and so most significant (20_memory.md R32). -/
def numeral (xs : List Symbol) : Nat := xs.foldl (fun acc x => 2 * acc + symbolValue x) 0

/-- The input validation of the list-level forms: exactly n symbols, each 0 or 1 (60_exceptions.md R140). -/
def isValidInput (n : Nat) (xs : List Symbol) : Bool := xs.length == n && xs.all isBinary

/-- pack4 or pack7 of a valid list; none where InvalidInput is raised (60_exceptions.md R143). -/
def readSymbols (n : Nat) (xs : List Symbol) : Option (BitVec n) :=
  if isValidInput n xs then some (BitVec.ofNat n (numeral xs)) else none

/-- The symbol of one bit. -/
def symbolOf (b : Bit) : Symbol := if b then .one else .zero

/-- unpack7: a word as a list of symbols, position 1 first (60_exceptions.md R143). -/
def unpack7 (c : Word7) : List Symbol :=
  [symbolOf (codeBit c 1), symbolOf (codeBit c 2), symbolOf (codeBit c 3), symbolOf (codeBit c 4), symbolOf (codeBit c 5),
    symbolOf (codeBit c 6), symbolOf (codeBit c 7)]

end Sys2Proof.Machine
end

