-- ==== Sys2Proof/Machine/Flags.lean ====
section
/-! DEFINITION. The decoder's internal signals and its status indication: the syndrome, the error position and the error flag
(spec/41_decoder.md R81 to R86, spec/10_state.md R15, R17). Every one is a function of the received word alone. -/

namespace Sys2Proof.Machine

/-- s1, the parity of positions 1, 3, 5, 7 (41_decoder.md R81). -/
def syndromeS1 (c : Word7) : Bit := codeBit c 1 ^^ codeBit c 3 ^^ codeBit c 5 ^^ codeBit c 7

/-- s2, the parity of positions 2, 3, 6, 7 (41_decoder.md R82). -/
def syndromeS2 (c : Word7) : Bit := codeBit c 2 ^^ codeBit c 3 ^^ codeBit c 6 ^^ codeBit c 7

/-- s3, the parity of positions 4, 5, 6, 7 (41_decoder.md R83). -/
def syndromeS3 (c : Word7) : Bit := codeBit c 4 ^^ codeBit c 5 ^^ codeBit c 6 ^^ codeBit c 7

/-- value = 4*s3 + 2*s2 + s1, s3 the most significant bit (41_decoder.md R85, 30_encoding.md R48). -/
def syndromeValue (c : Word7) : Pos :=
  BitVec.ofNat 3 (4 * (syndromeS3 c).toNat + 2 * (syndromeS2 c).toNat + (syndromeS1 c).toNat)

/-- error_flag_out: 1 when the value is not 0 (10_state.md R17). -/
def errorFlag (value : Pos) : BitVec 1 := if value ≠ 0 then 1 else 0

/-- The ErrorPosition as the source's optional number: none when the value is 0, else the value (41_decoder.md R86). -/
def errorPosition (value : Pos) : Option Pos := if value = 0 then none else some value

end Sys2Proof.Machine
end

