-- ==== Sys2Proof/Machine/State.lean ====
section
/-! DEFINITION. The state of the whole system, as plain data, and its outcomes. The hardware has no state of its own
(spec/10_state.md R10); what changes is what the host drives on the input ports, what it still wants evaluated and what it
holds. The channel's random source is an operand of CORRUPT, not state (spec/42_channel_env.md R117).
Every output port is a function of the input ports (Machine/Ports.lean, log entry 1). -/

namespace Sys2Proof.Machine

/-- What the evaluation of an operation answers to the host. -/
inductive Output where
  /-- ENC: `codeword_out` (10_state.md R11). -/
  | codeword (w : Word7)
  /-- DEC: `corrected_out`, `error_pos_out`, `error_flag_out`, `data_out` (10_state.md R12). -/
  | decoded (corrected : Word7) (pos : Pos) (flag : BitVec 1) (data : DataWord)
  /-- CORRUPT_AT: the corrupted word (42_channel_env.md R111). -/
  | word (w : Word7)
  /-- CORRUPT: the corrupted word and the flipped position, never none (30_encoding.md R46). -/
  | wordAt (w : Word7) (p : Pos)
  /-- encodeList: the codeword as a list of symbols (60_exceptions.md R143). -/
  | list (xs : List Symbol)
  /-- decodeList and corruptList: a word as a list of symbols, with the position or none (60_exceptions.md R143). -/
  | listAt (xs : List Symbol) (p : Option Pos)
  /-- The error InvalidInput, in place of the result; it carries nothing (60_exceptions.md R140, R147). -/
  | invalidInput
deriving DecidableEq, Repr

/-- One value the host holds: the operation it had evaluated, operand included, and what that answered (10_state.md R10, R20;
42_channel_env.md R115: the input stays available beside the output). -/
structure Record where
  instr : Instr
  output : Output
deriving DecidableEq, Repr

/-- Where the host takes an operand from: it supplies a packed value or a list itself, or it hands on a value it holds, bit for
bit and in the value's own width (70_reset_and_hazards.md R163, 20_memory.md R33). `k` counts the results from 0. -/
inductive Source where
  | packed (width w : Nat)
  | symbols (xs : List Symbol)
  /-- The 7-bit word of result k: a codeword, a corrected codeword or a corrupted word. -/
  | wordOf (k : Nat)
  /-- `data_out` of result k, a DEC. -/
  | dataOf (k : Nat)
  /-- The list of result k, of the list-level front end. -/
  | listOf (k : Nat)
deriving DecidableEq, Repr

/-- Where the host takes the second operand from: it supplies a position or a random source, or it hands on a position it holds
(70_reset_and_hazards.md R163). -/
inductive SecondSource where
  | absent
  | position (p : Nat)
  /-- The position of result k: detected by the decoder or flipped by the channel. -/
  | positionOf (k : Nat)
  | random (rng : RandomSource)
deriving DecidableEq, Repr

/-- A line of a program: an operation the host will have evaluated (00_scope.md R9, spec/95_test_vectors.md section 7). -/
structure Line where
  row : Row
  source : Source
  second : SecondSource
deriving DecidableEq, Repr

/-- The state of the system. -/
structure State where
  /-- Port `data_in`: what the host drives on it (10_state.md R11, R13). -/
  dataIn : DataWord
  /-- Port `received_in`: what the host drives on it (10_state.md R12, R13). -/
  receivedIn : Word7
  /-- The open parameter API_FRONT_END (60_exceptions.md R143, D5): whether the list-level front end is present. -/
  apiFrontEnd : Bool
  /-- What the host will still have evaluated, in its order (70_reset_and_hazards.md R163, R169). -/
  program : List Line
  /-- What the host holds, oldest first (10_state.md R10, R20). -/
  results : List Record
deriving DecidableEq, Repr

/-- The only reason a step stops with a fault. -/
inductive Fault where
  /-- Raised by `step` (Machine/Fetch.lean): the next line of the program takes its operand from a value that does not exist,
  or not of that kind: "an operation can be evaluated once its input value exists" (20_memory.md R36). Safe (log entry 5). -/
  | inputMissing
deriving DecidableEq, Repr

/-- Why an operation has no meaning. -/
inductive Refusal where
  /-- Raised by an arm of `exec` that has no meaning yet; no arm of this model does. Safe. -/
  | notModelled (mnemonic : String)
  /-- Raised by `step`: the next line is no operation, its operand cannot be expressed at the block's input
  (20_memory.md R33, 60_exceptions.md R142, 42_channel_env.md R111). Safe (log entries 9 and 16). -/
  | undecodable (why : DecodeError)
  /-- Raised by CORRUPT_AT on position 0, which "is not a value of the operand's type and is not given a meaning"
  (42_channel_env.md R111, U7). Safe (log entry 9). -/
  | positionOutOfRange
  /-- Raised by the list-level form of an operation where the front end is absent: the call does not exist then
  (60_exceptions.md R142, R143). Safe (log entry 3). -/
  | frontEndAbsent
deriving DecidableEq, Repr

/-- There is no reset and nothing to reset (10_state.md R21, 70_reset_and_hazards.md R160): no program is loaded and no
operation has been evaluated. The values on the input ports and the front end's presence are the model's choices (log entries
2, 3 and 5). -/
def State.reset : State where
  dataIn := 0
  receivedIn := 0
  apiFrontEnd := true
  program := []
  results := []

end Sys2Proof.Machine
end

