-- ==== Sys2Proof/Machine/Ports.lean ====
section
/-! DEFINITION. The two hardware blocks as functions of their input ports, and what every output port shows in a state: "the
function of the current inputs" at any time (spec/10_state.md R10, R21; spec/40_encoder.md R60 to R64; spec/41_decoder.md R80 to
R92). Log entry 1: no output port is stored. -/

namespace Sys2Proof.Machine

/-- r1 (40_encoder.md R61). -/
def parityR1 (d : DataWord) : Bit := dataBit d 1 ^^ dataBit d 2 ^^ dataBit d 4

/-- r2 (40_encoder.md R62). -/
def parityR2 (d : DataWord) : Bit := dataBit d 1 ^^ dataBit d 3 ^^ dataBit d 4

/-- r3 (40_encoder.md R63). -/
def parityR3 (d : DataWord) : Bit := dataBit d 2 ^^ dataBit d 3 ^^ dataBit d 4

/-- The codeword of a DataWord, in the order r1 r2 d1 r3 d2 d3 d4 (40_encoder.md R64, 30_encoding.md R47). -/
def encodeWord (d : DataWord) : Word7 :=
  pack7 (parityR1 d) (parityR2 d) (dataBit d 1) (parityR3 d) (dataBit d 2) (dataBit d 3) (dataBit d 4)

/-- The corrected codeword: the received word when the syndrome value is 0, else with the bit at that position flipped
(41_decoder.md R88, R89). -/
def correctWord (c : Word7) : Word7 :=
  if syndromeValue c = 0 then c else flip c (syndromeValue c)

/-- The data bits of a codeword: positions 3, 5, 6, 7 (41_decoder.md R92, 30_encoding.md R49). -/
def extractData (c : Word7) : DataWord := pack4 (codeBit c 3) (codeBit c 5) (codeBit c 6) (codeBit c 7)

/-- Port `codeword_out` (10_state.md R11). -/
def State.codewordOut (s : State) : Word7 := encodeWord s.dataIn

/-- Port `corrected_out` (10_state.md R12). -/
def State.correctedOut (s : State) : Word7 := correctWord s.receivedIn

/-- Port `error_pos_out` (10_state.md R12, 41_decoder.md R86). -/
def State.errorPosOut (s : State) : Pos := syndromeValue s.receivedIn

/-- Port `error_flag_out` (10_state.md R17). -/
def State.errorFlagOut (s : State) : BitVec 1 := errorFlag s.errorPosOut

/-- Port `data_out` (41_decoder.md R92): taken after the correction. -/
def State.dataOut (s : State) : DataWord := extractData s.correctedOut

end Sys2Proof.Machine
end

