-- ==== Sys2Proof/Machine/Ops.lean ====
section
/-! DEFINITION. The named operations over the state: driving an input port, taking a result, raising InvalidInput, drawing a
position, and reading an operand in either form. -/

namespace Sys2Proof.Machine

/-- The host drives `data_in` (10_state.md R13). -/
def State.driveData (s : State) (d : DataWord) : State := { s with dataIn := d }

/-- The host drives `received_in` (10_state.md R13). -/
def State.driveReceived (s : State) (c : Word7) : State := { s with receivedIn := c }

/-- The host takes the answer of an operation and holds it from then on (10_state.md R20). -/
def State.record (s : State) (i : Instr) (o : Output) : State := { s with results := s.results ++ [⟨i, o⟩] }

/-- TAKING THE EXCEPTION InvalidInput (60_exceptions.md R140, R147): it "is the result of the call, in place of the normal
result". Nothing is computed, driven or drawn, nothing is saved, no mode changes, and control goes back to the caller. There
is no return from it, since there is no handler (R148); the run goes on with the next operation (log entry 4). -/
def State.raiseInvalidInput (s : State) (i : Instr) : State := s.record i .invalidInput

/-- The position that the number k below 7 stands for. -/
def positionOf (k : Fin 7) : Pos := BitVec.ofNat 3 (k.val + 1)

/-- The position drawn from a random source: the injected one, or the generator's free draw (42_channel_env.md R112, R117). It is
a function of the source alone, and drawing changes nothing: "nothing persists between two calls of `CORRUPT`" (R117). -/
def drawPosition : RandomSource → Pos
  | .injected k => positionOf k
  | .generator n => positionOf (Config.draw n)

/-- Step past the line of the program that is evaluated now. -/
def State.advance (s : State) : State := { s with program := s.program.tail }

/-- Read the operand `x` of the operation `i` and go on with its value: at the ports every value is legal (30_encoding.md R51);
in the list-level form the input is validated before anything is computed, driven or drawn (60_exceptions.md R143, R145). -/
def withOperand {n : Nat} (s : State) (i : Instr) (x : Operand n) (k : BitVec n → State) : Host.Outcome State Fault Refusal :=
  match x with
  | .port v => .next (k v)
  | .symbols xs =>
    if s.apiFrontEnd then
      match readSymbols n xs with
      | none => .next (s.raiseInvalidInput i)
      | some v => .next (k v)
    else .refused .frontEndAbsent

end Sys2Proof.Machine
end

