-- ==== Sys2Proof/Machine/Channel.lean ====
section
/-! DEFINITION. The meanings of CORRUPT_AT and CORRUPT, the channel of the environment (spec/42_channel_env.md). The channel has no
port of the hardware: its input and its answer are values of the host (R115). -/

namespace Sys2Proof.Machine

/-- What CORRUPT_AT answers: the corrupted word (42_channel_env.md R111); in the list-level form corruptList's pair
(60_exceptions.md R143, log entry 11). -/
def corruptAtOutput (x : Operand 7) (c : Word7) (p : Pos) : Output :=
  match x with
  | .port _ => .word (flip c p)
  | .symbols _ => .listAt (unpack7 (flip c p)) (some p)

/-- What CORRUPT answers: the corrupted word and the position (42_channel_env.md R110, 60_exceptions.md R143). -/
def corruptOutput (x : Operand 7) (c : Word7) (p : Pos) : Output :=
  match x with
  | .port _ => .wordAt (flip c p) p
  | .symbols _ => .listAt (unpack7 (flip c p)) (some p)

/-- CORRUPT_AT (42_channel_env.md R111; list-level form 60_exceptions.md R143). Position 0 is not a value of the operand's type
and has no meaning (R111, U7, log entry 9). -/
def execCorruptAt (x : Operand 7) (p : Pos) (s : State) : Host.Outcome State Fault Refusal :=
  if p = 0 then .refused .positionOutOfRange
  else withOperand s (.corruptAt x p) x (fun c => s.record (.corruptAt x p) (corruptAtOutput x c p))

/-- CORRUPT (42_channel_env.md R110; list-level form R116: the input is validated before a position is drawn). -/
def execCorrupt (x : CorruptInput) (s : State) : Host.Outcome State Fault Refusal :=
  withOperand s (.corrupt x) x.word (fun c => s.record (.corrupt x) (corruptOutput x.word c (drawPosition x.rng)))

end Sys2Proof.Machine
end

