-- ==== Sys2Proof/Machine/Decoder.lean ====
section
/-! DEFINITION. The meaning of DEC (spec/41_decoder.md). -/

namespace Sys2Proof.Machine

/-- What DEC answers: its four output ports (41_decoder.md R80); in the list-level form the pair of the corrected codeword and
the position or none (60_exceptions.md R143). -/
def decOutput (x : Operand 7) (t : State) : Output :=
  match x with
  | .port _ => .decoded t.correctedOut t.errorPosOut t.errorFlagOut t.dataOut
  | .symbols _ => .listAt (unpack7 t.correctedOut) (errorPosition t.errorPosOut)

/-- DEC (41_decoder.md R80; list-level form R101): drive `received_in`, read the outputs. Every one of the 128 words has its one
result, however many bits were flipped (R96). -/
def execDec (x : Operand 7) (s : State) : Host.Outcome State Fault Refusal :=
  withOperand s (.dec x) x (fun c => (s.driveReceived c).record (.dec x) (decOutput x (s.driveReceived c)))

end Sys2Proof.Machine
end

