-- ==== Sys2Proof/Machine/Encoder.lean ====
section
/-! DEFINITION. The meaning of ENC (spec/40_encoder.md). -/

namespace Sys2Proof.Machine

/-- What ENC answers: `codeword_out`, as a list in the list-level form (60_exceptions.md R143). -/
def encOutput (x : Operand 4) (t : State) : Output :=
  match x with
  | .port _ => .codeword t.codewordOut
  | .symbols _ => .list (unpack7 t.codewordOut)

/-- ENC (40_encoder.md R60; list-level form R69): drive `data_in`, read `codeword_out`. -/
def execEnc (x : Operand 4) (s : State) : Host.Outcome State Fault Refusal :=
  withOperand s (.enc x) x (fun d => (s.driveData d).record (.enc x) (encOutput x (s.driveData d)))

end Sys2Proof.Machine
end

