-- ==== Sys2Proof/Machine/Dispatch.lean ====
section
/-! DEFINITION. One arm per constructor of Instr, each one call of its meaning (spec/30_encoding.md R50). -/

namespace Sys2Proof.Machine

def exec (i : Instr) (s : State) : Host.Outcome State Fault Refusal :=
  match i with
  | .enc x => Sys2Proof.Machine.execEnc x s
  | .dec x => Sys2Proof.Machine.execDec x s
  | .corruptAt x p => Sys2Proof.Machine.execCorruptAt x p s
  | .corrupt x => Sys2Proof.Machine.execCorrupt x s

end Sys2Proof.Machine
end

