-- ==== Sys2Proof/WellFormed.lean ====
section
/-! DEFINITION. Which terms of `Instr` are operations of the spec. -/

namespace Sys2Proof

/-- Every operand of every operation is legal (30_encoding.md R51; a list of a wrong length is legal syntax of the list-level
form and raises InvalidInput, R53), but for the position of CORRUPT_AT, which is in 1..7 (42_channel_env.md R111): as a 3-bit
number, not 0 (30_encoding.md R46: "0 does not occur"). -/
def Instr.wf : Instr → Bool
  | .enc _ => true
  | .dec _ => true
  | .corruptAt _ p => p != 0
  | .corrupt _ => true

end Sys2Proof
end

