-- ==== Sys2Proof/Decode.lean ====
section
/-! DEFINITION. From what the host presents to an operation, and back (spec/30_encoding.md R40 to R50). The decoder is total and
rejects by name. -/

namespace Sys2Proof

/-- What decoding answers. -/
inductive Decoded (α : Type) where
  | ok (a : α)
  | bad (why : DecodeError)
deriving DecidableEq, Repr

/-- The answer with `f` applied to the value read. -/
def Decoded.map {α β : Type} (f : α → β) : Decoded α → Decoded β
  | .ok a => .ok (f a)
  | .bad why => .bad why

/-- An operand for a port of `n` bits: exactly n bits (20_memory.md R33), each packed number below 2^n being the value on the
wires (20_memory.md R32, 30_encoding.md R51: every one of them is legal). Another width cannot be expressed on the port
(20_memory.md R33, 60_exceptions.md R142): it is neither cut nor extended (log entry 16). -/
def decodeOperand (n : Nat) : RawOperand → Decoded (Operand n)
  | .packed width w =>
    if width = n then
      if w < 2 ^ n then .ok (.port (BitVec.ofNat n w)) else .bad .operandTooWide
    else .bad .widthMismatch
  | .symbols xs => .ok (.symbols xs)

/-- CORRUPT_AT with its position operand, in 1..7 (42_channel_env.md R111). -/
def decodeCorruptAt (x : RawOperand) (p : Nat) : Decoded Instr :=
  if 1 ≤ p ∧ p ≤ 7 then (decodeOperand 7 x).map (fun y => .corruptAt y (BitVec.ofNat 3 p))
  else .bad .positionOutOfRange

/-- The operation a request stands for: the row is the opcode, and the operand's every bit is an operand bit
(30_encoding.md R50). -/
def decode (r : Request) : Decoded Instr :=
  match r.row, r.second with
  | .enc, .absent => (decodeOperand 4 r.operand).map .enc
  | .enc, .position _ => .bad .secondNotAnOperand
  | .enc, .random _ => .bad .secondNotAnOperand
  | .dec, .absent => (decodeOperand 7 r.operand).map .dec
  | .dec, .position _ => .bad .secondNotAnOperand
  | .dec, .random _ => .bad .secondNotAnOperand
  | .corruptAt, .absent => .bad .positionMissing
  | .corruptAt, .position p => decodeCorruptAt r.operand p
  | .corruptAt, .random _ => .bad .positionMissing
  | .corrupt, .absent => .bad .randomSourceMissing
  | .corrupt, .position _ => .bad .randomSourceMissing
  | .corrupt, .random rng => (decodeOperand 7 r.operand).map (fun y => .corrupt ⟨y, rng⟩)

/-- An operand as the host presents it: the packed value of the port (20_memory.md R32), or the symbols. -/
def encodeOperand {n : Nat} : Operand n → RawOperand
  | .port v => .packed n v.toNat
  | .symbols xs => .symbols xs

/-- The request that stands for an operation (spec/95_test_vectors.md section 7). -/
def encode : Instr → Request
  | .enc x => ⟨.enc, encodeOperand x, .absent⟩
  | .dec x => ⟨.dec, encodeOperand x, .absent⟩
  | .corruptAt x p => ⟨.corruptAt, encodeOperand x, .position p.toNat⟩
  | .corrupt x => ⟨.corrupt, encodeOperand x.word, .random x.rng⟩

/-- Which row a bare word of `nbits` bits goes to. DESIGN CHOICE (log entry 7): the table's words have no selecting bit, so the
widths decide: what fits the 4 wires of the encoder goes to ENC, what needs the 7-bit format goes to DEC. -/
def tableRow (nbits w : Nat) : Row :=
  if nbits ≤ 4 then .enc
  else if nbits ≤ 7 then .dec
  else if w < 16 then .enc
  else .dec

/-- The width of a row's first operand in the table. -/
def rowWidth : Row → Nat
  | .enc => 4
  | .dec => 7
  | .corruptAt => 7
  | .corrupt => 7

/-- A bare word of the table as a request: the low bits are the operand, in the width of its row. -/
def tableRequest (nbits w : Nat) : Request := ⟨tableRow nbits w, .packed (rowWidth (tableRow nbits w)) w, .absent⟩

/-- The operation the decoder reads from a bare word of the table. -/
def decodeTableWord (nbits w : Nat) : Option Instr :=
  match decode (tableRequest nbits w) with
  | .ok i => some i
  | .bad _ => none

end Sys2Proof
end

