-- ==== Sys2Proof/Machine/Fetch.lean ====
section
/-! DEFINITION. Which operation comes next. The hardware fetches nothing (spec/10_state.md R16, spec/20_memory.md R38): the host
takes the next line of its program and carries the operand to the block (spec/70_reset_and_hazards.md R163). -/

namespace Sys2Proof.Machine

/-- The 7-bit word that a held value is, if it is one. -/
def Output.word? : Output → Option Word7
  | .codeword w => some w
  | .decoded w _ _ _ => some w
  | .word w => some w
  | .wordAt w _ => some w
  | .list _ => none
  | .listAt _ _ => none
  | .invalidInput => none

/-- The DataWord that a held value has, if it has one. -/
def Output.data? : Output → Option DataWord
  | .codeword _ => none
  | .decoded _ _ _ d => some d
  | .word _ => none
  | .wordAt _ _ => none
  | .list _ => none
  | .listAt _ _ => none
  | .invalidInput => none

/-- The list of symbols that a held value has, if it has one. -/
def Output.list? : Output → Option (List Symbol)
  | .codeword _ => none
  | .decoded _ _ _ _ => none
  | .word _ => none
  | .wordAt _ _ => none
  | .list xs => some xs
  | .listAt xs _ => some xs
  | .invalidInput => none

/-- The position that a held value has, as the number on its port or in its pair: 0 where a decoder's port says none
(30_encoding.md R45); no number where a list-level pair says none. -/
def Output.position? : Output → Option Pos
  | .codeword _ => none
  | .decoded _ p _ _ => some p
  | .word _ => none
  | .wordAt _ p => some p
  | .list _ => none
  | .listAt _ p => p
  | .invalidInput => none

/-- The operand a source gives, handed on bit for bit, position for position (70_reset_and_hazards.md R163, R165), in the width of
the value: 7 bits of a word, 4 of a DataWord, so that a port of another width does not take it (20_memory.md R33, log entry
16). None while the value does not exist (20_memory.md R36). -/
def Source.resolve (results : List Record) : Source → Option RawOperand
  | .packed width w => some (.packed width w)
  | .symbols xs => some (.symbols xs)
  | .wordOf k => ((results[k]?).bind (fun r => r.output.word?)).map (fun w => .packed 7 w.toNat)
  | .dataOf k => ((results[k]?).bind (fun r => r.output.data?)).map (fun d => .packed 4 d.toNat)
  | .listOf k => ((results[k]?).bind (fun r => r.output.list?)).map .symbols

/-- The second operand a source gives; none while the position does not exist. -/
def SecondSource.resolve (results : List Record) : SecondSource → Option SecondOperand
  | .absent => some .absent
  | .position p => some (.position p)
  | .positionOf k => ((results[k]?).bind (fun r => r.output.position?)).map (fun p => .position p.toNat)
  | .random rng => some (.random rng)

/-- What the next step finds. -/
inductive Fetched where
  /-- No operation is left: the run has ended (70_reset_and_hazards.md R169). -/
  | endOfRun
  /-- One of the line's operands does not exist (20_memory.md R36). -/
  | noInput
  /-- The line is no operation. -/
  | bad (why : DecodeError)
  /-- The operation to evaluate. -/
  | instr (i : Instr)
deriving DecidableEq, Repr

/-- What the decoder answers, as what the next step finds. -/
def Fetched.ofDecoded : Decoded Instr → Fetched
  | .ok i => .instr i
  | .bad why => .bad why

/-- The operation of one line, its operands taken from what the host holds. -/
def fetchLine (results : List Record) (l : Line) : Fetched :=
  match l.source.resolve results, l.second.resolve results with
  | none, _ => .noInput
  | some _, none => .noInput
  | some x, some y => .ofDecoded (decode ⟨l.row, x, y⟩)

/-- The next operation of the program. -/
def fetch (s : State) : Fetched :=
  match s.program with
  | [] => .endOfRun
  | l :: _ => fetchLine s.results l

/-- A bare word of the operation table as a line that supplies it (log entry 7). -/
def tableLine (nbits w : Nat) : Line := ⟨tableRow nbits w, .packed (rowWidth (tableRow nbits w)) w, .absent⟩

end Sys2Proof.Machine
end

