-- ==== Sys2Proof/Machine/Step.lean ====
section
/-! DEFINITION. One step of the system: the host has the next line of its program evaluated. When none is left the run has
ended and nothing happens any more (spec/70_reset_and_hazards.md R169, log entry 5). -/

namespace Sys2Proof.Machine

def step (s : State) : Host.Outcome State Fault Refusal :=
  match fetch s with
  | .endOfRun => .next s
  | .noInput => .fault .inputMissing
  | .bad why => .refused (.undecodable why)
  | .instr i => exec i s.advance

/-- `s` with the bare table word `w` as the line that `step` evaluates next: it replaces the next line, and it stands for the
host's loading of a program from outside (log entries 6 and 7). -/
def State.withFetchWord (s : State) (nbits w : Nat) : State :=
  { s with program := tableLine nbits w :: s.program.tail }

end Sys2Proof.Machine
end

