-- ==== Sys2Proof/Safety.lean ====
section
/-! DEFINITION. What claims are stated in: the codewords, a bad list-level input, a record that agrees with the spec, and the
invariant that every record the host holds does. -/

namespace Sys2Proof

open Sys2Proof.Machine

/-- A codeword: "a 7-bit word that `ENC` can produce" (00_scope.md R9). -/
def IsCodeword (w : Word7) : Prop := ∃ d, encodeWord d = w

/-- `w` carries the DataWord `d` at positions 3, 5, 6, 7 and each of its three parity checks is 0 (20_memory.md R31,
40_encoder.md R71). -/
def CarriesData (w : Word7) (d : DataWord) : Prop :=
  codeBit w 3 = dataBit d 1 ∧ codeBit w 5 = dataBit d 2 ∧ codeBit w 6 = dataBit d 3 ∧ codeBit w 7 = dataBit d 4 ∧
  syndromeS1 w = false ∧ syndromeS2 w = false ∧ syndromeS3 w = false

/-- Position p is one of 1..7, and it is exactly there that the words differ (42_channel_env.md R113). -/
def DifferExactlyAt (c c' : Word7) (p : Pos) : Prop :=
  p ≠ 0 ∧ ∀ q, 1 ≤ q → q ≤ 7 → (codeBit c' q ≠ codeBit c q ↔ q = p.toNat)

/-- The input that raises InvalidInput: "wrong length or contains a non-binary symbol" (60_exceptions.md R140). -/
def BadInput (n : Nat) (xs : List Symbol) : Prop := xs.length ≠ n ∨ ∃ x ∈ xs, x ≠ .zero ∧ x ≠ .one

/-- The four outputs of the decoder agree with the received word `c`: the corrected word carries the data and is `c` itself with
no error reported, or differs from `c` exactly at the reported position (41_decoder.md R88, R89, R92, R95). -/
def DecodedFrom (c w : Word7) (v : Pos) (f : BitVec 1) (d : DataWord) : Prop :=
  CarriesData w d ∧ ((v = 0 ∧ w = c ∧ f = 0) ∨ (DifferExactlyAt c w v ∧ f = 1))

/-- An answer of ENC that agrees with its operand (40_encoder.md R60, R69). -/
def EncAgrees : Operand 4 → Output → Prop
  | .port d, .codeword w => CarriesData w d
  | .symbols xs, .list ys => ∃ d w, readSymbols 4 xs = some d ∧ ys = unpack7 w ∧ CarriesData w d
  | .symbols xs, .invalidInput => BadInput 4 xs
  | _, _ => False

/-- An answer of DEC that agrees with its operand (41_decoder.md R80, R101). -/
def DecAgrees : Operand 7 → Output → Prop
  | .port c, .decoded w v f d => DecodedFrom c w v f d
  | .symbols xs, .listAt ys p =>
    ∃ c w v f d, readSymbols 7 xs = some c ∧ ys = unpack7 w ∧ p = errorPosition v ∧ DecodedFrom c w v f d
  | .symbols xs, .invalidInput => BadInput 7 xs
  | _, _ => False

/-- An answer of CORRUPT_AT that agrees with its operands (42_channel_env.md R111). -/
def CorruptAtAgrees (p : Pos) : Operand 7 → Output → Prop
  | .port c, .word w => DifferExactlyAt c w p
  | .symbols xs, .listAt ys q => ∃ c w, readSymbols 7 xs = some c ∧ ys = unpack7 w ∧ q = some p ∧ DifferExactlyAt c w p
  | .symbols xs, .invalidInput => p ≠ 0 ∧ BadInput 7 xs
  | _, _ => False

/-- An answer of CORRUPT that agrees with its operand: some position, and exactly that one flipped (42_channel_env.md R110). -/
def CorruptAgrees : Operand 7 → Output → Prop
  | .port c, .wordAt w p => DifferExactlyAt c w p
  | .symbols xs, .listAt ys q => ∃ c w p, readSymbols 7 xs = some c ∧ ys = unpack7 w ∧ q = some p ∧ DifferExactlyAt c w p
  | .symbols xs, .invalidInput => BadInput 7 xs
  | _, _ => False

/-- A value the host holds that agrees with the spec's relation between operand and answer. -/
def RecordAgrees (r : Record) : Prop :=
  match r.instr with
  | .enc x => EncAgrees x r.output
  | .dec x => DecAgrees x r.output
  | .corruptAt x p => CorruptAtAgrees p x r.output
  | .corrupt x => CorruptAgrees x.word r.output

/-- The invariant of the system: every value the host holds agrees with the spec. -/
def AllAgree (s : State) : Prop := ∀ r ∈ s.results, RecordAgrees r

/-- The number p if position p of the error pattern `e` is flipped, else 0. -/
def flippedNumber (e : Word7) (p : Nat) : Pos := if codeBit e p then BitVec.ofNat 3 p else 0

/-- "The bitwise XOR of the numbers p1, ..., pn" of the flipped positions of the error pattern `e` (41_decoder.md R84). -/
def positionXor (e : Word7) : Pos :=
  flippedNumber e 1 ^^^ flippedNumber e 2 ^^^ flippedNumber e 3 ^^^ flippedNumber e 4 ^^^ flippedNumber e 5 ^^^
    flippedNumber e 6 ^^^ flippedNumber e 7

/-- The last value the host took is the answer `o` of the operation `i`. -/
def LastAnswer (t : State) (i : Instr) (o : Output) : Prop := t.results.getLast? = some ⟨i, o⟩

end Sys2Proof
end

