-- ==== Sys2Proof/Certificates/Slice0/Obligations.lean ====
section
/-! DEFINITION. The statements for the provers, from the numbered rules of spec/. The encoder first, then the decoder, the channel,
the list-level front end, the laws of the pipeline, and the machine around them. -/

open Sys2Proof Sys2Proof.Machine

/-- 40_encoder.md R61 to R65: in every state ENC completes, its codeword is the one the three parity equations and the assembly
give, the same in every state, and nothing but `data_in` and the new result changes. -/
def Obligations.EncodeComputesParityAndAssembles : Prop :=
  ∀ d : DataWord, ∃ w : Word7,
    codeBit w 1 = (dataBit d 1 ^^ dataBit d 2 ^^ dataBit d 4) ∧
    codeBit w 2 = (dataBit d 1 ^^ dataBit d 3 ^^ dataBit d 4) ∧
    codeBit w 4 = (dataBit d 2 ^^ dataBit d 3 ^^ dataBit d 4) ∧
    codeBit w 1 = parityR1 d ∧ codeBit w 2 = parityR2 d ∧ codeBit w 4 = parityR3 d ∧
    (parityR1 d = true ↔ ((dataBit d 1).toNat + (dataBit d 2).toNat + (dataBit d 4).toNat) % 2 = 1) ∧
    codeBit w 3 = dataBit d 1 ∧ codeBit w 5 = dataBit d 2 ∧ codeBit w 6 = dataBit d 3 ∧ codeBit w 7 = dataBit d 4 ∧
    w.toNat = 64 * (parityR1 d).toNat + 32 * (parityR2 d).toNat + 16 * (dataBit d 1).toNat + 8 * (parityR3 d).toNat +
      4 * (dataBit d 2).toNat + 2 * (dataBit d 3).toNat + (dataBit d 4).toNat ∧
    ∀ s : State,
      exec (.enc (.port d)) s =
        .next { s with dataIn := d, results := s.results ++ [⟨.enc (.port d), .codeword w⟩] } ∧
      State.codewordOut { s with dataIn := d, results := s.results ++ [⟨.enc (.port d), .codeword w⟩] } = w

/-- 40_encoder.md R68: the sixteen rows, as DataWord, codeword and weight. -/
def Obligations.EncodeFunctionTable : Prop :=
  ∀ s : State, ∀ row ∈ ([(0x0, 0x00, 0), (0x1, 0x69, 4), (0x2, 0x2A, 3), (0x3, 0x43, 3), (0x4, 0x4C, 3), (0x5, 0x25, 3),
      (0x6, 0x66, 4), (0x7, 0x0F, 4), (0x8, 0x70, 3), (0x9, 0x19, 3), (0xA, 0x5A, 4), (0xB, 0x33, 4), (0xC, 0x3C, 4),
      (0xD, 0x55, 4), (0xE, 0x16, 3), (0xF, 0x7F, 7)] : List (DataWord × Word7 × Nat)),
    exec (.enc (.port row.1)) s =
      .next { s with dataIn := row.1, results := s.results ++ [⟨.enc (.port row.1), .codeword row.2.1⟩] } ∧
    weight row.2.1 = row.2.2

/-- 40_encoder.md R71 (an inference of the spec from R61 to R64): in every state, whatever drives `data_in`, the three checks of
the word on `codeword_out` are 0 and re-deriving the parity from its data positions gives its parity positions. -/
def Obligations.CodewordOutHasEvenParity : Prop :=
  ∀ s : State,
    (codeBit s.codewordOut 1 ^^ codeBit s.codewordOut 3 ^^ codeBit s.codewordOut 5 ^^ codeBit s.codewordOut 7) = false ∧
    (codeBit s.codewordOut 2 ^^ codeBit s.codewordOut 3 ^^ codeBit s.codewordOut 6 ^^ codeBit s.codewordOut 7) = false ∧
    (codeBit s.codewordOut 4 ^^ codeBit s.codewordOut 5 ^^ codeBit s.codewordOut 6 ^^ codeBit s.codewordOut 7) = false ∧
    parityR1 (extractData s.codewordOut) = codeBit s.codewordOut 1 ∧
    parityR2 (extractData s.codewordOut) = codeBit s.codewordOut 2 ∧
    parityR3 (extractData s.codewordOut) = codeBit s.codewordOut 4

/-- 40_encoder.md R66 (an inference of the spec): ENC is linear over bits, and 0000 gives 0000000. -/
def Obligations.EncodeIsLinear : Prop :=
  (∀ s s' s'' : State, s''.dataIn = s.dataIn ^^^ s'.dataIn → s''.codewordOut = s.codewordOut ^^^ s'.codewordOut) ∧
  ∀ s : State, s.dataIn = 0 → s.codewordOut = 0

/-- 43_properties.md R133 (an inference of the spec): complementing the DataWord complements the codeword. -/
def Obligations.EncodeComplements : Prop :=
  ∀ s s' : State, s'.dataIn = ~~~s.dataIn → s'.codewordOut = ~~~s.codewordOut

/-- 40_encoder.md R67 and 43_properties.md R123 (inferences of the spec): two different DataWords give two different codewords, and
the codewords are sixteen words. -/
def Obligations.EncodeIsInjectiveWithSixteenCodewords : Prop :=
  (∀ s s' : State, s.codewordOut = s'.codewordOut → s.dataIn = s'.dataIn) ∧
  ∃ book : List Word7, book.length = 16 ∧ book.Nodup ∧ ∀ w, w ∈ book ↔ ∃ s : State, s.codewordOut = w

/-- 43_properties.md R126 (an inference of the spec): two different codewords differ in at least three positions, and some two
in exactly three. -/
def Obligations.CodewordsDifferInThreePositions : Prop :=
  (∀ s s' : State, s.dataIn ≠ s'.dataIn → 3 ≤ distance s.codewordOut s'.codewordOut) ∧
  ∃ s s' : State, s.dataIn ≠ s'.dataIn ∧ distance s.codewordOut s'.codewordOut = 3

/-- 41_decoder.md R81, R82, R83: DEC completes, and each bit of `error_pos_out` is the parity of its four positions of the received
word; it is 0 on a codeword; flipping a position that it reads inverts it, and flipping another leaves it. -/
def Obligations.DecodeComputesSyndrome : Prop :=
  ∀ (s : State) (c : Word7), ∃ t, exec (.dec (.port c)) s = .next t ∧
    t.errorPosOut.getLsbD 0 = (codeBit c 1 ^^ codeBit c 3 ^^ codeBit c 5 ^^ codeBit c 7) ∧
    t.errorPosOut.getLsbD 1 = (codeBit c 2 ^^ codeBit c 3 ^^ codeBit c 6 ^^ codeBit c 7) ∧
    t.errorPosOut.getLsbD 2 = (codeBit c 4 ^^ codeBit c 5 ^^ codeBit c 6 ^^ codeBit c 7) ∧
    t.errorPosOut.getLsbD 0 = syndromeS1 c ∧ t.errorPosOut.getLsbD 1 = syndromeS2 c ∧
    t.errorPosOut.getLsbD 2 = syndromeS3 c ∧
    (IsCodeword c → syndromeS1 c = false ∧ syndromeS2 c = false ∧ syndromeS3 c = false) ∧
    ∀ p : Pos, p ≠ 0 →
      syndromeS1 (flip c p) = (syndromeS1 c ^^ decide (p.toNat ∈ [1, 3, 5, 7])) ∧
      syndromeS2 (flip c p) = (syndromeS2 c ^^ decide (p.toNat ∈ [2, 3, 6, 7])) ∧
      syndromeS3 (flip c p) = (syndromeS3 c ^^ decide (p.toNat ∈ [4, 5, 6, 7]))

/-- 41_decoder.md R85: the syndrome value is 4*s3 + 2*s2 + s1; every value occurs for sixteen received words; and the other reading
of the significance names a wrong position for an error at positions 1, 3, 4 and 6 and no other. -/
def Obligations.SyndromeValueIsWeighted : Prop :=
  (∀ (s : State) (c : Word7), ∃ t, exec (.dec (.port c)) s = .next t ∧
    t.errorPosOut.toNat = 4 * (syndromeS3 c).toNat + 2 * (syndromeS2 c).toNat + (syndromeS1 c).toNat) ∧
  (∀ v : Pos, ((List.range 128).filter (fun n => syndromeValue (BitVec.ofNat 7 n) == v)).length = 16) ∧
  ∀ (w : Word7) (p : Pos), IsCodeword w → p ≠ 0 →
    (4 * (syndromeS1 (flip w p)).toNat + 2 * (syndromeS2 (flip w p)).toNat + (syndromeS3 (flip w p)).toNat ≠ p.toNat ↔
      p.toNat ∈ [1, 3, 4, 6])

/-- 10_state.md R17: DEC sets the flag and the position from this received word alone, in whatever state, and no other operation
changes them; so neither is sticky. -/
def Obligations.FlagAndPositionFollowReceivedWord : Prop :=
  (∀ (s : State) (c : Word7), ∃ t, exec (.dec (.port c)) s = .next t ∧ t.errorPosOut = syndromeValue c ∧
    (syndromeValue c ≠ 0 → t.errorFlagOut = 1) ∧ (syndromeValue c = 0 → t.errorFlagOut = 0)) ∧
  ∀ (i : Instr) (s t : State), (∀ x, i ≠ .dec x) → exec i s = .next t →
    t.errorPosOut = s.errorPosOut ∧ t.errorFlagOut = s.errorFlagOut

/-- 41_decoder.md R88, no error: the received codeword comes back unchanged with position none; this happens for exactly the
codewords. -/
def Obligations.DecodeReturnsCodewordUnchanged : Prop :=
  (∀ (s : State) (c : Word7), syndromeValue c = 0 →
    exec (.dec (.port c)) s =
      .next { s with
        receivedIn := c
        results := s.results ++ [⟨.dec (.port c), .decoded c 0 0 (extractData c)⟩] }) ∧
  (∀ c : Word7, syndromeValue c = 0 ↔ IsCodeword c) ∧
  ((List.range 128).filter (fun n => syndromeValue (BitVec.ofNat 7 n) == 0)).length = 16

/-- 41_decoder.md R89, correction: the bit at position `value` is complemented, the other six pass through, the position and the
flag say so; this happens for the 112 words that are not codewords. -/
def Obligations.DecodeFlipsTheNamedPosition : Prop :=
  (∀ (s : State) (c : Word7), syndromeValue c ≠ 0 → ∃ w : Word7,
    codeBit w (syndromeValue c).toNat = !codeBit c (syndromeValue c).toNat ∧
    (∀ q, 1 ≤ q → q ≤ 7 → q ≠ (syndromeValue c).toNat → codeBit w q = codeBit c q) ∧
    w = flip c (syndromeValue c) ∧ distance c w = 1 ∧
    exec (.dec (.port c)) s =
      .next { s with
        receivedIn := c
        results := s.results ++ [⟨.dec (.port c), .decoded w (syndromeValue c) 1 (extractData w)⟩] }) ∧
  (∀ c : Word7, syndromeValue c ≠ 0 ↔ ¬ IsCodeword c) ∧
  ((List.range 128).filter (fun n => syndromeValue (BitVec.ofNat 7 n) != 0)).length = 112

/-- 41_decoder.md R90 (an inference of the spec from R88, R89): the corrected word, position by position, as the received bit
and the selected position. -/
def Obligations.CorrectedOutPositionByPosition : Prop :=
  ∀ (s : State) (c : Word7), ∃ t, exec (.dec (.port c)) s = .next t ∧
    ∀ p, 1 ≤ p → p ≤ 7 → codeBit t.correctedOut p = (codeBit c p ^^ decide (t.errorPosOut.toNat = p))

/-- 41_decoder.md R92: the data bits are positions 3, 5, 6, 7 of the corrected word, in that order and after the correction. -/
def Obligations.DataOutIsTakenAfterCorrection : Prop :=
  ∀ (s : State) (c : Word7), ∃ t, exec (.dec (.port c)) s = .next t ∧
    dataBit t.dataOut 1 = codeBit t.correctedOut 3 ∧ dataBit t.dataOut 2 = codeBit t.correctedOut 5 ∧
    dataBit t.dataOut 3 = codeBit t.correctedOut 6 ∧ dataBit t.dataOut 4 = codeBit t.correctedOut 7 ∧
    dataBit t.dataOut 1 = (codeBit c 3 ^^ decide (syndromeValue c = 3)) ∧
    dataBit t.dataOut 2 = (codeBit c 5 ^^ decide (syndromeValue c = 5)) ∧
    dataBit t.dataOut 3 = (codeBit c 6 ^^ decide (syndromeValue c = 6)) ∧
    dataBit t.dataOut 4 = (codeBit c 7 ^^ decide (syndromeValue c = 7)) ∧
    (syndromeValue c = 0 ∨ syndromeValue c = 1 ∨ syndromeValue c = 2 ∨ syndromeValue c = 4 → t.dataOut = extractData c)

/-- 41_decoder.md R93 (an inference of the spec): an error in a parity position is corrected, is flagged, and leaves the data. -/
def Obligations.ParityErrorIsCorrectedAndLeavesData : Prop :=
  ∀ (s : State) (d : DataWord) (p : Pos), p = 1 ∨ p = 2 ∨ p = 4 →
    ∃ t, exec (.dec (.port (flip (encodeWord d) p))) s = .next t ∧ t.errorPosOut = p ∧ t.errorFlagOut = 1 ∧
      t.correctedOut = encodeWord d ∧ DifferExactlyAt t.receivedIn t.correctedOut p ∧
      t.dataOut = extractData t.receivedIn ∧ t.dataOut = d

/-- 41_decoder.md R99, R104: the same received word gives the same four outputs in every state; `received_in` keeps the word, and
nothing but it and the new result changes. -/
def Obligations.DecodeIsAFunctionOfTheReceivedWord : Prop :=
  ∀ c : Word7, ∃ (w : Word7) (v : Pos) (f : BitVec 1) (d : DataWord), ∀ s : State,
    exec (.dec (.port c)) s =
      .next { s with
        receivedIn := c
        results := s.results ++ [⟨.dec (.port c), .decoded w v f d⟩] }

/-- 41_decoder.md R95 (an inference of the spec): whatever is received, the corrected word is a codeword, and encoding the data
output gives it back. -/
def Obligations.ReencodingTheDataGivesTheCorrectedWord : Prop :=
  ∀ (s : State) (c : Word7), ∃ t u, exec (.dec (.port c)) s = .next t ∧ IsCodeword t.correctedOut ∧
    exec (.enc (.port t.dataOut)) t = .next u ∧ u.codewordOut = t.correctedOut

/-- 41_decoder.md R98 (an inference of the spec): decoding the decoder's own output changes nothing and reports no error. -/
def Obligations.DecodeIsIdempotent : Prop :=
  ∀ (s : State) (c : Word7), ∃ t u, exec (.dec (.port c)) s = .next t ∧ exec (.dec (.port t.correctedOut)) t = .next u ∧
    u.correctedOut = t.correctedOut ∧ u.errorPosOut = 0 ∧ u.errorFlagOut = 0 ∧ u.dataOut = t.dataOut

/-- 42_channel_env.md R111: exactly the bit at position p is complemented; packed, the word is exclusive-ored with 2^(7-p); flipping
twice restores and flips commute; nothing but the new result changes. -/
def Obligations.CorruptAtFlipsTheGivenPosition : Prop :=
  ∀ (s : State) (c : Word7) (p : Pos), p ≠ 0 → ∃ w : Word7,
    (∀ q, 1 ≤ q → q ≤ 7 → codeBit w q = if q = p.toNat then !codeBit c q else codeBit c q) ∧
    w.toNat = c.toNat ^^^ 2 ^ (7 - p.toNat) ∧
    exec (.corruptAt (.port c) p) s =
      .next { s with results := s.results ++ [⟨.corruptAt (.port c) p, .word w⟩] } ∧
    (∃ t, exec (.corruptAt (.port w) p) s = .next t ∧ LastAnswer t (.corruptAt (.port w) p) (.word c)) ∧
    ∀ q : Pos, q ≠ 0 → ∃ (w' : Word7) (t u v : State) (both : Word7),
      exec (.corruptAt (.port c) q) s = .next t ∧ LastAnswer t (.corruptAt (.port c) q) (.word w') ∧
      exec (.corruptAt (.port w) q) s = .next u ∧ LastAnswer u (.corruptAt (.port w) q) (.word both) ∧
      exec (.corruptAt (.port w') p) s = .next v ∧ LastAnswer v (.corruptAt (.port w') p) (.word both)

/-- 42_channel_env.md R111 and 93_implementation_defined.md U7, log entry 9: a position outside 1..7 is given no meaning; the model
stops on it by name, in either form. -/
def Obligations.CorruptAtStopsOnPositionZero : Prop :=
  ∀ (s : State) (x : Operand 7), exec (.corruptAt x 0) s = .refused .positionOutOfRange

/-- 42_channel_env.md R110: CORRUPT always flips one bit at a position in 1..7 and answers the word with that position, whatever
the random source; as a relation, its possible results on a word are exactly the seven flips, all different; nothing but the new
result changes. -/
def Obligations.CorruptHasSevenOutcomes : Prop :=
  (∀ (s : State) (c : Word7) (rng : RandomSource), ∃ (p : Pos) (w : Word7), DifferExactlyAt c w p ∧
    exec (.corrupt ⟨.port c, rng⟩) s =
      .next { s with results := s.results ++ [⟨.corrupt ⟨.port c, rng⟩, .wordAt w p⟩] }) ∧
  (∀ (s : State) (c w : Word7) (p : Pos),
    (∃ (rng : RandomSource) (t : State), exec (.corrupt ⟨.port c, rng⟩) s = .next t ∧
      LastAnswer t (.corrupt ⟨.port c, rng⟩) (.wordAt w p)) ↔
      p ≠ 0 ∧ w = flip c p) ∧
  ∀ (c : Word7) (p q : Pos), p ≠ 0 → q ≠ 0 → p ≠ q → flip c p ≠ flip c q

/-- 42_channel_env.md R113, R115: whatever was drawn, input and output differ at exactly the reported position, and the host
holds the input beside the output. -/
def Obligations.CorruptReportsTheOneDifference : Prop :=
  ∀ (s t : State) (c : Word7) (rng : RandomSource), exec (.corrupt ⟨.port c, rng⟩) s = .next t → ∃ (w : Word7) (p : Pos),
    t.results = s.results ++ [⟨.corrupt ⟨.port c, rng⟩, .wordAt w p⟩] ∧ p ≠ 0 ∧ distance c w = 1 ∧
    codeBit w p.toNat ≠ codeBit c p.toNat ∧ ∀ q, 1 ≤ q → q ≤ 7 → q ≠ p.toNat → codeBit w q = codeBit c q

/-- 42_channel_env.md R111, R117 and log entry 8 (the model's form of the random source): a source with the injected draw k has
CORRUPT flip position k + 1, in every state; nothing but the new result changes. -/
def Obligations.CorruptFlipsTheInjectedPosition : Prop :=
  ∀ (s : State) (c : Word7) (k : Fin 7), ∃ p : Pos, p.toNat = k.val + 1 ∧
    exec (.corrupt ⟨.port c, .injected k⟩) s =
      .next { s with results := s.results ++ [⟨.corrupt ⟨.port c, .injected k⟩, .wordAt (flip c p) p⟩] }

/-- 30_encoding.md R51: at the ports every input pattern is legal, in every state, with the front end present or absent: the
operation completes and its answer is not InvalidInput. -/
def Obligations.EveryPortInputIsLegal : Prop :=
  ∀ s : State,
    (∀ d : DataWord, ∃ t w, exec (.enc (.port d)) s = .next t ∧ LastAnswer t (.enc (.port d)) (.codeword w)) ∧
    (∀ c : Word7, ∃ t w v f d, exec (.dec (.port c)) s = .next t ∧ LastAnswer t (.dec (.port c)) (.decoded w v f d)) ∧
    (∀ (c : Word7) (p : Pos), p ≠ 0 →
      ∃ t w, exec (.corruptAt (.port c) p) s = .next t ∧ LastAnswer t (.corruptAt (.port c) p) (.word w)) ∧
    ∀ (c : Word7) (rng : RandomSource), ∃ t w p, exec (.corrupt ⟨.port c, rng⟩) s = .next t ∧
      LastAnswer t (.corrupt ⟨.port c, rng⟩) (.wordAt w p)

/-- The list-level forms raise InvalidInput exactly on a wrong length or a non-binary symbol (or both: one error), and then nothing is
computed, driven or drawn (60_exceptions.md R140, R143, R145). That the error is the call's answer in a next state, and not a stop of
the machine, is the model's reading (log entry 4, of R147 and R148 against U4), and that CORRUPT_AT has corruptList's list-level form
is too (log entry 11, of R143). -/
def Obligations.InvalidInputIsRaisedExactlyOnBadInput : Prop :=
  ∀ (s : State) (xs : List Symbol), s.apiFrontEnd = true →
    (BadInput 4 xs ↔ exec (.enc (.symbols xs)) s =
      .next { s with results := s.results ++ [⟨.enc (.symbols xs), .invalidInput⟩] }) ∧
    (BadInput 7 xs ↔ exec (.dec (.symbols xs)) s =
      .next { s with results := s.results ++ [⟨.dec (.symbols xs), .invalidInput⟩] }) ∧
    (∀ rng : RandomSource, BadInput 7 xs ↔ exec (.corrupt ⟨.symbols xs, rng⟩) s =
      .next { s with results := s.results ++ [⟨.corrupt ⟨.symbols xs, rng⟩, .invalidInput⟩] }) ∧
    ∀ p : Pos, p ≠ 0 → (BadInput 7 xs ↔ exec (.corruptAt (.symbols xs) p) s =
      .next { s with results := s.results ++ [⟨.corruptAt (.symbols xs) p, .invalidInput⟩] })

/-- The list-level ENC takes exactly four symbols 0 or 1 and answers the codeword of their DataWord, as a list; on any other list
it raises InvalidInput and computes nothing; at the port it never fails (40_encoder.md R69). The model's readings: a valid list
drives `data_in` with its packing (log entry 15), and InvalidInput is an answer in a next state (log entry 4). -/
def Obligations.EncodeListForm : Prop :=
  (∀ (s : State) (b1 b2 b3 b4 : Bit), s.apiFrontEnd = true → ∃ (xs : List Symbol) (w : Word7) (t : State),
    xs = [symbolOf b1, symbolOf b2, symbolOf b3, symbolOf b4] ∧
    exec (.enc (.port (pack4 b1 b2 b3 b4))) s = .next t ∧ t.codewordOut = w ∧
    exec (.enc (.symbols xs)) s =
      .next { s with
        dataIn := pack4 b1 b2 b3 b4
        results := s.results ++ [⟨.enc (.symbols xs), .list (unpack7 w)⟩] }) ∧
  (∀ (s : State) (xs : List Symbol), s.apiFrontEnd = true → BadInput 4 xs →
    exec (.enc (.symbols xs)) s =
      .next { s with results := s.results ++ [⟨.enc (.symbols xs), .invalidInput⟩] }) ∧
  ∀ (s : State) (d : DataWord), ∃ t w, exec (.enc (.port d)) s = .next t ∧ LastAnswer t (.enc (.port d)) (.codeword w)

/-- The list-level DEC takes exactly seven symbols 0 or 1 and answers the corrected word as a list with the position or none; on any
other list it raises InvalidInput and computes nothing; at the port it never fails (41_decoder.md R101). The model's readings: a
valid list drives `received_in` with its packing (log entry 15), and InvalidInput is an answer in a next state (log entry 4). -/
def Obligations.DecodeListForm : Prop :=
  (∀ (s : State) (b1 b2 b3 b4 b5 b6 b7 : Bit), s.apiFrontEnd = true →
    ∃ (xs : List Symbol) (t : State) (position : Option Pos),
      xs = [symbolOf b1, symbolOf b2, symbolOf b3, symbolOf b4, symbolOf b5, symbolOf b6, symbolOf b7] ∧
      exec (.dec (.port (pack7 b1 b2 b3 b4 b5 b6 b7))) s = .next t ∧
      position = (if t.errorPosOut = 0 then none else some t.errorPosOut) ∧
      exec (.dec (.symbols xs)) s =
        .next { s with
          receivedIn := pack7 b1 b2 b3 b4 b5 b6 b7
          results := s.results ++ [⟨.dec (.symbols xs), .listAt (unpack7 t.correctedOut) position⟩] }) ∧
  (∀ (s : State) (xs : List Symbol), s.apiFrontEnd = true → BadInput 7 xs →
    exec (.dec (.symbols xs)) s =
      .next { s with results := s.results ++ [⟨.dec (.symbols xs), .invalidInput⟩] }) ∧
  ∀ (s : State) (c : Word7), ∃ t w v f d, exec (.dec (.port c)) s = .next t ∧
    LastAnswer t (.dec (.port c)) (.decoded w v f d)

/-- A list that is not seven symbols 0 or 1 raises InvalidInput before any position is drawn: whatever the random source, the answer
is the same and no source is touched (42_channel_env.md R116). That the error is an answer in a next state is the model's reading
(log entry 4). -/
def Obligations.CorruptRejectsABadListBeforeDrawing : Prop :=
  ∀ (s : State) (xs : List Symbol) (rng : RandomSource), s.apiFrontEnd = true → BadInput 7 xs →
    exec (.corrupt ⟨.symbols xs, rng⟩) s =
      .next { s with results := s.results ++ [⟨.corrupt ⟨.symbols xs, rng⟩, .invalidInput⟩] }

/-- 60_exceptions.md R143, corruptList (log entry 11 for CORRUPT_AT): on seven symbols 0 or 1 the channel answers the corrupted word
as a list, with the position. -/
def Obligations.CorruptListForms : Prop :=
  ∀ (s : State) (c : Word7), s.apiFrontEnd = true →
    (∀ p : Pos, p ≠ 0 → exec (.corruptAt (.symbols (unpack7 c)) p) s =
      .next { s with
        results := s.results ++ [⟨.corruptAt (.symbols (unpack7 c)) p, .listAt (unpack7 (flip c p)) (some p)⟩] }) ∧
    ∀ rng : RandomSource, ∃ p : Pos, p ≠ 0 ∧ exec (.corrupt ⟨.symbols (unpack7 c), rng⟩) s =
      .next { s with
        results := s.results ++ [⟨.corrupt ⟨.symbols (unpack7 c), rng⟩, .listAt (unpack7 (flip c p)) (some p)⟩] }

/-- 60_exceptions.md R143 and log entry 3: without the front end there is no list-level call; the model stops on one by name. -/
def Obligations.ListFormsStopWithoutFrontEnd : Prop :=
  ∀ (s : State) (xs : List Symbol), s.apiFrontEnd = false →
    exec (.enc (.symbols xs)) s = .refused .frontEndAbsent ∧
    exec (.dec (.symbols xs)) s = .refused .frontEndAbsent ∧
    (∀ rng : RandomSource, exec (.corrupt ⟨.symbols xs, rng⟩) s = .refused .frontEndAbsent) ∧
    ∀ p : Pos, p ≠ 0 → exec (.corruptAt (.symbols xs) p) s = .refused .frontEndAbsent

/-- 60_exceptions.md R148: a failed call leaves nothing behind but the error the host holds: every operation that follows answers
as it would have without it. -/
def Obligations.AFailedCallLeavesNothingBehind : Prop :=
  ∀ (i j : Instr) (s t u : State) (o : Output), exec i s = .next t → LastAnswer t i .invalidInput →
    exec j s = .next u → LastAnswer u j o →
      exec j t = .next { u with results := s.results ++ [⟨i, .invalidInput⟩] ++ [⟨j, o⟩] }

/-- Every well-formed operation, in either form, is total where the front end is present, and no operation faults in any state
(60_exceptions.md R151 on valid input). The model's readings: a call that raises InvalidInput completes, with the error as its answer,
although U4 says fault (log entry 4); a list-level call without the front end is refused (log entry 3); CORRUPT_AT on position 0 is
refused, being ill-formed (log entry 9). -/
def Obligations.WellFormedOperationsAreTotal : Prop :=
  (∀ (i : Instr) (s : State), i.wf = true → s.apiFrontEnd = true → ∃ t, exec i s = .next t) ∧
  ∀ (i : Instr) (s : State) (f : Fault), exec i s ≠ .fault f

/-- 43_properties.md R124: encoding and then decoding without corruption gives the codeword back with no error, and (an inference
of the spec) the DataWord. -/
def Obligations.DecodeAfterEncodeReportsNoError : Prop :=
  ∀ (s : State) (d : DataWord), ∃ t u, exec (.enc (.port d)) s = .next t ∧
    exec (.dec (.port t.codewordOut)) t = .next u ∧
    u.correctedOut = t.codewordOut ∧ u.errorPosOut = 0 ∧ u.errorFlagOut = 0 ∧ u.dataOut = d

/-- 43_properties.md R125 and 41_decoder.md R94: every DataWord, every single flipped position, given or drawn: the decoder returns
the codeword sent, the position flipped, the flag and the DataWord. -/
def Obligations.EverySingleErrorIsCorrected : Prop :=
  (∀ (s : State) (d : DataWord) (p : Pos), p ≠ 0 → ∃ (t u v : State) (c : Word7),
    exec (.enc (.port d)) s = .next t ∧
    exec (.corruptAt (.port t.codewordOut) p) t = .next u ∧
    LastAnswer u (.corruptAt (.port t.codewordOut) p) (.word c) ∧
    exec (.dec (.port c)) u = .next v ∧
    v.correctedOut = t.codewordOut ∧ v.errorPosOut = p ∧ v.errorFlagOut = 1 ∧ v.dataOut = d) ∧
  ∀ (s : State) (d : DataWord) (rng : RandomSource), ∃ (t u v : State) (c : Word7) (p : Pos),
    exec (.enc (.port d)) s = .next t ∧
    exec (.corrupt ⟨.port t.codewordOut, rng⟩) t = .next u ∧
    LastAnswer u (.corrupt ⟨.port t.codewordOut, rng⟩) (.wordAt c p) ∧ p ≠ 0 ∧
    exec (.dec (.port c)) u = .next v ∧
    v.correctedOut = t.codewordOut ∧ v.errorPosOut = p ∧ v.errorFlagOut = 1 ∧ v.dataOut = d

/-- 43_properties.md R130: 0000 encodes to 0000000, and any single flip of it decodes back to all zeros with its position. -/
def Obligations.AllZeroBoundary : Prop :=
  ∀ s : State,
    exec (.enc (.port 0)) s = .next { s with dataIn := 0, results := s.results ++ [⟨.enc (.port 0), .codeword 0⟩] } ∧
    ∀ p : Pos, p ≠ 0 → ∃ (c : Word7) (t : State), c.toNat = 2 ^ (7 - p.toNat) ∧
      exec (.dec (.port c)) s = .next t ∧ t.correctedOut = 0 ∧ t.errorPosOut = p ∧ t.dataOut = 0

/-- 41_decoder.md R84 (an inference of the spec): the decoder's position depends only on the error pattern: it is the exclusive or of
the flipped positions as numbers, whichever codeword was sent. -/
def Obligations.SyndromeDependsOnlyOnTheErrorPattern : Prop :=
  ∀ (s : State) (d : DataWord) (e : Word7), ∃ t u, exec (.dec (.port (encodeWord d ^^^ e))) s = .next t ∧
    exec (.dec (.port e)) s = .next u ∧ t.errorPosOut = u.errorPosOut ∧ t.errorPosOut = positionXor e

/-- 41_decoder.md R96 (an inference of the spec): two or more flipped bits are silently miscorrected, to the one result the
equations give: a codeword other than the one sent. -/
def Obligations.TwoOrMoreErrorsAreMiscorrected : Prop :=
  ∀ (s : State) (d : DataWord) (e : Word7), 2 ≤ weight e → ∃ (t : State) (v : Pos), v = positionXor e ∧
    exec (.dec (.port (encodeWord d ^^^ e))) s = .next t ∧
    t.errorPosOut = v ∧ t.errorFlagOut = (if v = 0 then 0 else 1) ∧
    t.correctedOut = (if v = 0 then encodeWord d ^^^ e else flip (encodeWord d ^^^ e) v) ∧
    IsCodeword t.correctedOut ∧ t.correctedOut ≠ encodeWord d ∧ t.dataOut ≠ d ∧
    (weight e = 2 → v ≠ 0 ∧ codeBit e v.toNat = false ∧ distance t.correctedOut (encodeWord d) = 3) ∧
    (weight e = 3 → v = 0 → distance t.correctedOut (encodeWord d) = 3) ∧
    (weight e = 3 → v ≠ 0 → codeBit e v.toNat = false ∧ distance t.correctedOut (encodeWord d) = 4)

/-- 43_properties.md R127, R128, R134 (inferences of the spec): in every state the flag is 0 when the received word is a codeword, and
otherwise the corrected word is the one codeword at distance 1 and the position is where they differ. -/
def Obligations.DecoderFindsTheNearestCodeword : Prop :=
  ∀ s : State,
    (IsCodeword s.receivedIn ↔ s.errorPosOut = 0) ∧
    (IsCodeword s.receivedIn → s.errorFlagOut = 0 ∧ s.correctedOut = s.receivedIn) ∧
    (¬ IsCodeword s.receivedIn → s.errorFlagOut = 1 ∧ IsCodeword s.correctedOut ∧
      distance s.receivedIn s.correctedOut = 1 ∧ DifferExactlyAt s.receivedIn s.correctedOut s.errorPosOut ∧
      ∀ w, IsCodeword w → distance s.receivedIn w = 1 → w = s.correctedOut)

/-- The frame of ENC, DEC, CORRUPT_AT and CORRUPT in every form (10_state.md R10, R13, R19, R20; 42_channel_env.md R117): an operation that
completes adds its one answer after all the host holds and drives only its own input port; CORRUPT_AT and CORRUPT drive none, and a
draw persists nowhere; a call that raises InvalidInput drives nothing. There is no other register, flag or memory. -/
def Obligations.FrameOfEveryOperation : Prop :=
  ∀ (i : Instr) (s t : State), exec i s = .next t →
    t.apiFrontEnd = s.apiFrontEnd ∧ t.program = s.program ∧ (∃ o, t.results = s.results ++ [⟨i, o⟩]) ∧
    ((∀ x, i ≠ .enc x) → t.dataIn = s.dataIn ∧ t.codewordOut = s.codewordOut) ∧
    ((∀ x, i ≠ .dec x) → t.receivedIn = s.receivedIn ∧ t.correctedOut = s.correctedOut ∧ t.errorPosOut = s.errorPosOut ∧
      t.errorFlagOut = s.errorFlagOut ∧ t.dataOut = s.dataOut) ∧
    (LastAnswer t i .invalidInput → t.dataIn = s.dataIn ∧ t.receivedIn = s.receivedIn)

/-- 20_memory.md R36 (a) and 40_encoder.md R65, 41_decoder.md R99, 10_state.md R19, 42_channel_env.md R117: an operation's answer depends
on its own input alone, the random source being one of CORRUPT's inputs: two states that agree on nothing give the same answer. -/
def Obligations.AnswersDependOnlyOnTheInput : Prop :=
  ∀ (i : Instr) (s s' t t' : State), exec i s = .next t → exec i s' = .next t' →
    ∃ o, t.results = s.results ++ [⟨i, o⟩] ∧ t'.results = s'.results ++ [⟨i, o⟩]

/-- 20_memory.md R36 (b) and 60_exceptions.md R150: two operations with no data dependency can be evaluated in either order with the
same answers; operations of different blocks leave the same ports. -/
def Obligations.IndependentOperationsCommute : Prop :=
  ∀ (i j : Instr) (s t u t' u' : State),
    exec i s = .next t → exec j t = .next u → exec j s = .next t' → exec i t' = .next u' →
      (∃ o o', u.results = s.results ++ [⟨i, o⟩, ⟨j, o'⟩] ∧ u'.results = s.results ++ [⟨j, o'⟩, ⟨i, o⟩]) ∧
      ((∀ x y, ¬ (i = .enc x ∧ j = .enc y)) → u.dataIn = u'.dataIn) ∧
      ((∀ x y, ¬ (i = .dec x ∧ j = .dec y)) → u.receivedIn = u'.receivedIn)

/-- 10_state.md R21, 70_reset_and_hazards.md R160 with log entries 1, 2, 3 and 5: nothing is stored to reset; the host holds nothing, no
program is loaded, the front end is present (the model's choice), and every output port is the function of the input ports
(driven with 0, the model's choice). -/
def Obligations.ResetHoldsNothing : Prop :=
  State.reset.results = [] ∧ State.reset.program = [] ∧ State.reset.apiFrontEnd = true ∧
  State.reset.dataIn = 0 ∧ State.reset.receivedIn = 0 ∧
  State.reset.codewordOut = encodeWord State.reset.dataIn ∧ State.reset.codewordOut = 0 ∧
  State.reset.correctedOut = 0 ∧ State.reset.errorPosOut = 0 ∧ State.reset.errorFlagOut = 0 ∧ State.reset.dataOut = 0

/-- A step runs the decoded operation: where the next line's operands exist and the line decodes to i, step is exec of i in the
state past that line. -/
def Obligations.StepRunsTheDecodedOperation : Prop :=
  ∀ (s : State) (l : Line) (ls : List Line) (x : RawOperand) (y : SecondOperand) (i : Instr), s.program = l :: ls →
    l.source.resolve s.results = some x → l.second.resolve s.results = some y → decode ⟨l.row, x, y⟩ = .ok i →
      step s = exec i { s with program := ls }

/-- 70_reset_and_hazards.md R169 (log entry 5): when no operation is left the run has ended and a step changes nothing. -/
def Obligations.StepAfterTheLastOperation : Prop :=
  ∀ s : State, s.program = [] → step s = .next s

/-- 70_reset_and_hazards.md R163 (c), R165: a value the host holds is handed on bit for bit, position for position: a codeword, a
corrected or a corrupted word to the decoder and the channel, `data_out` to the encoder, a list of the front end to every list-level
form, and a position that the decoder detected or the channel flipped to CORRUPT_AT. -/
def Obligations.StepCarriesHeldValues : Prop :=
  (∀ (s : State) (ls : List Line) (k : Nat) (r : Record) (w : Word7), s.results[k]? = some r →
    (r.output = .codeword w ∨ (∃ v f d, r.output = .decoded w v f d) ∨ r.output = .word w ∨ ∃ p, r.output = .wordAt w p) →
      (s.program = ⟨.dec, .wordOf k, .absent⟩ :: ls → step s = exec (.dec (.port w)) { s with program := ls }) ∧
      (∀ rng : RandomSource, s.program = ⟨.corrupt, .wordOf k, .random rng⟩ :: ls →
        step s = exec (.corrupt ⟨.port w, rng⟩) { s with program := ls }) ∧
      ∀ p : Pos, p ≠ 0 → s.program = ⟨.corruptAt, .wordOf k, .position p.toNat⟩ :: ls →
        step s = exec (.corruptAt (.port w) p) { s with program := ls }) ∧
  (∀ (s : State) (ls : List Line) (k : Nat) (i : Instr) (w : Word7) (v : Pos) (f : BitVec 1) (d : DataWord),
    s.results[k]? = some ⟨i, .decoded w v f d⟩ → s.program = ⟨.enc, .dataOf k, .absent⟩ :: ls →
      step s = exec (.enc (.port d)) { s with program := ls }) ∧
  (∀ (s : State) (ls : List Line) (k : Nat) (r : Record) (xs : List Symbol), s.results[k]? = some r →
    (r.output = .list xs ∨ ∃ p, r.output = .listAt xs p) →
      (s.program = ⟨.enc, .listOf k, .absent⟩ :: ls → step s = exec (.enc (.symbols xs)) { s with program := ls }) ∧
      (s.program = ⟨.dec, .listOf k, .absent⟩ :: ls → step s = exec (.dec (.symbols xs)) { s with program := ls }) ∧
      (∀ rng : RandomSource, s.program = ⟨.corrupt, .listOf k, .random rng⟩ :: ls →
        step s = exec (.corrupt ⟨.symbols xs, rng⟩) { s with program := ls }) ∧
      ∀ p : Pos, p ≠ 0 → s.program = ⟨.corruptAt, .listOf k, .position p.toNat⟩ :: ls →
        step s = exec (.corruptAt (.symbols xs) p) { s with program := ls }) ∧
  ∀ (s : State) (ls : List Line) (k : Nat) (r : Record) (p : Pos) (src : Source) (x : Operand 7), s.results[k]? = some r →
    ((∃ w f d, r.output = .decoded w p f d) ∨ (∃ w, r.output = .wordAt w p) ∨ ∃ xs, r.output = .listAt xs (some p)) →
      p ≠ 0 → src.resolve s.results = some (encodeOperand x) → s.program = ⟨.corruptAt, src, .positionOf k⟩ :: ls →
        step s = exec (.corruptAt x p) { s with program := ls }

/-- 20_memory.md R36 and log entry 5: an operation one of whose input values does not exist is not evaluated: the line names a result
that is not there yet, or a part that the result does not have (a word of a list, the data of a codeword, a list of a word, a
position where none is reported, anything of InvalidInput). Stopping by name there is the model's choice. -/
def Obligations.StepStopsWithoutItsInput : Prop :=
  (∀ (s : State) (l : Line) (ls : List Line) (k : Nat), s.program = l :: ls → s.results.length ≤ k →
    (l.source = .wordOf k ∨ l.source = .dataOf k ∨ l.source = .listOf k ∨ l.second = .positionOf k) →
      step s = .fault .inputMissing) ∧
  ∀ (s : State) (l : Line) (ls : List Line) (k : Nat) (r : Record), s.program = l :: ls → s.results[k]? = some r →
    (l.source = .wordOf k ∧ ((∃ xs, r.output = .list xs) ∨ (∃ xs p, r.output = .listAt xs p) ∨ r.output = .invalidInput)) ∨
    (l.source = .dataOf k ∧ ((∃ w, r.output = .codeword w) ∨ (∃ w, r.output = .word w) ∨ (∃ w p, r.output = .wordAt w p) ∨
      (∃ xs, r.output = .list xs) ∨ (∃ xs p, r.output = .listAt xs p) ∨ r.output = .invalidInput)) ∨
    (l.source = .listOf k ∧ ((∃ w, r.output = .codeword w) ∨ (∃ w v f d, r.output = .decoded w v f d) ∨
      (∃ w, r.output = .word w) ∨ (∃ w p, r.output = .wordAt w p) ∨ r.output = .invalidInput)) ∨
    (l.second = .positionOf k ∧ ((∃ w, r.output = .codeword w) ∨ (∃ w, r.output = .word w) ∨ (∃ xs, r.output = .list xs) ∨
      (∃ xs, r.output = .listAt xs none) ∨ r.output = .invalidInput)) →
      step s = .fault .inputMissing

/-- A packed number that does not fit the port (60_exceptions.md R142) and a position outside 1..7 (42_channel_env.md R111), supplied or
handed on from a decoder that reports none, are no operands. The spec gives them no meaning; that the step stops by name is the
model's choice (log entries 9 and 16). -/
def Obligations.StepStopsOnWhatCannotBeExpressed : Prop :=
  (∀ (s : State) (ls : List Line) (w : Nat), 16 ≤ w → s.program = ⟨.enc, .packed 4 w, .absent⟩ :: ls →
    step s = .refused (.undecodable .operandTooWide)) ∧
  (∀ (s : State) (ls : List Line) (w : Nat), 128 ≤ w →
    (s.program = ⟨.dec, .packed 7 w, .absent⟩ :: ls ∨ (∃ rng, s.program = ⟨.corrupt, .packed 7 w, .random rng⟩ :: ls) ∨
      ∃ p, 1 ≤ p ∧ p ≤ 7 ∧ s.program = ⟨.corruptAt, .packed 7 w, .position p⟩ :: ls) →
      step s = .refused (.undecodable .operandTooWide)) ∧
  (∀ (s : State) (ls : List Line) (src : Source) (x : RawOperand) (p : Nat), p = 0 ∨ 7 < p → src.resolve s.results = some x →
    s.program = ⟨.corruptAt, src, .position p⟩ :: ls → step s = .refused (.undecodable .positionOutOfRange)) ∧
  ∀ (s : State) (ls : List Line) (src : Source) (x : RawOperand) (k : Nat) (i : Instr) (w : Word7) (f : BitVec 1) (d : DataWord),
    s.results[k]? = some ⟨i, .decoded w 0 f d⟩ → src.resolve s.results = some x →
      s.program = ⟨.corruptAt, src, .positionOf k⟩ :: ls → step s = .refused (.undecodable .positionOutOfRange)

/-- Whole-machine rule (10_state.md R20, 20_memory.md R30): no step takes back or changes a value the host holds, none changes the front
end's presence, and each completed step leaves exactly the rest of the program. -/
def Obligations.StepsOnlyAddToWhatIsHeld : Prop :=
  ∀ s t : State, step s = .next t →
    (∃ added, t.results = s.results ++ added ∧ added.length ≤ 1) ∧ t.apiFrontEnd = s.apiFrontEnd ∧
    t.program = s.program.tail

/-- 30_encoding.md R41, R43, R50: a few operands written bit by bit in the patterns abcd and pqarbcd decode to the operations they
stand for. -/
def Obligations.DecodeReadsTheTablePatterns : Prop :=
  decode ⟨.enc, .packed 4 0b1011, .absent⟩ = .ok (.enc (.port (pack4 true false true true))) ∧
  decode ⟨.dec, .packed 7 0b0110111, .absent⟩ = .ok (.dec (.port (pack7 false true true false true true true))) ∧
  decode ⟨.corruptAt, .packed 7 0b0110011, .position 5⟩ =
    .ok (.corruptAt (.port (pack7 false true true false false true true)) 5) ∧
  decode ⟨.corrupt, .packed 7 0b1000000, .random (.injected 4)⟩ =
    .ok (.corrupt ⟨.port (pack7 true false false false false false false), .injected 4⟩)

/-- Headline: for every well-formed operation, with every operand at every value (every port value, every list, every position,
every random source), decoding its encoding gives it back; nothing of an operand is dropped. -/
def Obligations.DecodeOfEncodeIsTheOperation : Prop :=
  ∀ i : Instr, i.wf = true → decode (encode i) = .ok i

/-- The other direction: what decodes is well-formed, and it is the encoding of nothing but its own request. -/
def Obligations.EncodeOfDecodeIsTheRequest : Prop :=
  ∀ (r : Request) (i : Instr), decode r = .ok i → i.wf = true ∧ encode i = r

/-- The invariant at the start: after reset every value the host holds agrees with the spec. -/
def Obligations.EveryHeldValueAgreesAtReset : Prop := AllAgree State.reset

/-- Headline: from every state in which every value the host holds agrees with the spec's relation between operand and answer (a
codeword that carries the data with its checks 0; a corrected word that is a codeword equal to the received word or differing from
it exactly at the reported position; a corrupted word that differs exactly at its position; InvalidInput exactly for a bad list),
a step gives such a state. -/
def Obligations.StepKeepsEveryHeldValueInAgreement : Prop :=
  ∀ s t : State, AllAgree s → step s = .next t → AllAgree t

/-- 20_memory.md R33 and log entry 16: the encoder takes exactly 4 bits, the decoder and the channel exactly 7, so a value of another
width is neither cut nor extended: a held `data_out` does not reach the decoder or the channel, a held word does not reach the encoder,
whatever its bits. Stopping by name is the model's choice. -/
def Obligations.StepStopsOnAnotherWidth : Prop :=
  (∀ (s : State) (ls : List Line) (k : Nat) (i : Instr) (w : Word7) (v : Pos) (f : BitVec 1) (d : DataWord),
    s.results[k]? = some ⟨i, .decoded w v f d⟩ →
      (s.program = ⟨.dec, .dataOf k, .absent⟩ :: ls ∨ (∃ rng, s.program = ⟨.corrupt, .dataOf k, .random rng⟩ :: ls) ∨
        ∃ p, 1 ≤ p ∧ p ≤ 7 ∧ s.program = ⟨.corruptAt, .dataOf k, .position p⟩ :: ls) →
        step s = .refused (.undecodable .widthMismatch)) ∧
  (∀ (s : State) (ls : List Line) (k : Nat) (r : Record) (w : Word7), s.results[k]? = some r →
    (r.output = .codeword w ∨ (∃ v f d, r.output = .decoded w v f d) ∨ r.output = .word w ∨ ∃ p, r.output = .wordAt w p) →
      s.program = ⟨.enc, .wordOf k, .absent⟩ :: ls → step s = .refused (.undecodable .widthMismatch)) ∧
  (∀ (s : State) (ls : List Line) (width w : Nat), width ≠ 4 → s.program = ⟨.enc, .packed width w, .absent⟩ :: ls →
    step s = .refused (.undecodable .widthMismatch)) ∧
  ∀ (s : State) (ls : List Line) (width w : Nat), width ≠ 7 →
    (s.program = ⟨.dec, .packed width w, .absent⟩ :: ls ∨ (∃ rng, s.program = ⟨.corrupt, .packed width w, .random rng⟩ :: ls) ∨
      ∃ p, 1 ≤ p ∧ p ≤ 7 ∧ s.program = ⟨.corruptAt, .packed width w, .position p⟩ :: ls) →
      step s = .refused (.undecodable .widthMismatch)

/-- 42_channel_env.md R112, R117: the position that CORRUPT flips is a function of the random source it is given, and of nothing else:
neither the state, nor an earlier call, nor the word; every position in 1..7 is the choice of some source (log entry 8, the
model's form of the source). -/
def Obligations.CorruptPositionComesFromItsSource : Prop :=
  (∀ rng : RandomSource, ∃ p : Pos, p ≠ 0 ∧ ∀ (s : State) (c : Word7), exec (.corrupt ⟨.port c, rng⟩) s =
    .next { s with results := s.results ++ [⟨.corrupt ⟨.port c, rng⟩, .wordAt (flip c p) p⟩] }) ∧
  ∀ p : Pos, p ≠ 0 → ∃ rng : RandomSource, ∀ (s : State) (c : Word7), exec (.corrupt ⟨.port c, rng⟩) s =
    .next { s with results := s.results ++ [⟨.corrupt ⟨.port c, rng⟩, .wordAt (flip c p) p⟩] }

/-- 30_encoding.md R50 and log entry 7 (the model's form of a request): ENC and DEC have no second operand, CORRUPT_AT has its position and
CORRUPT its random source; a request with another second operand is rejected by name, whatever its first operand. -/
def Obligations.RequestsNeedTheirOwnSecondOperand : Prop :=
  ∀ x : RawOperand,
    (∀ y : SecondOperand, y ≠ .absent → decode ⟨.enc, x, y⟩ = .bad .secondNotAnOperand ∧
      decode ⟨.dec, x, y⟩ = .bad .secondNotAnOperand) ∧
    (∀ y : SecondOperand, (∀ p, y ≠ .position p) → decode ⟨.corruptAt, x, y⟩ = .bad .positionMissing) ∧
    ∀ y : SecondOperand, (∀ rng, y ≠ .random rng) → decode ⟨.corrupt, x, y⟩ = .bad .randomSourceMissing
end

