-- ==== Sys2Proof/Laws/Decode.lean ====
section
/-! SUPPORT. What reading an operand can do, said once. -/

namespace Sys2Proof

/-- Reading an operand that was presented from a value of the port, or a list, gives it back. -/
theorem decodeOperand_encodeOperand {n : Nat} (x : Operand n) : decodeOperand n (encodeOperand x) = .ok x := by
  cases x with
  | port v => simp [encodeOperand, decodeOperand, v.isLt]
  | symbols xs => rfl

/-- What an operand was read from is what presents it. -/
theorem encodeOperand_of_decodeOperand {n : Nat} {r : RawOperand} {x : Operand n} (h : decodeOperand n r = .ok x) :
    encodeOperand x = r := by
  cases r with
  | symbols xs => cases h; rfl
  | packed width w =>
    simp only [decodeOperand] at h
    split at h
    · rename_i same
      split at h
      · cases h; simp [encodeOperand, Nat.mod_eq_of_lt, *]
      · cases h
    · cases h

/-- An operand of another width than the port is rejected by name (20_memory.md R33). -/
theorem decodeOperand_otherWidth {n width w : Nat} (h : width ≠ n) :
    decodeOperand n (.packed width w) = .bad .widthMismatch := by
  simp [decodeOperand, h]

/-- A number that does not fit its width is rejected by name. -/
theorem decodeOperand_tooWide {n w : Nat} (h : 2 ^ n ≤ w) : decodeOperand n (.packed n w) = .bad .operandTooWide := by
  simp [decodeOperand, Nat.not_lt.2 h]

/-- A mapped answer is ok only from an ok answer. -/
theorem Decoded.map_eq_ok {α β : Type} {f : α → β} {d : Decoded α} {b : β} (h : d.map f = .ok b) :
    ∃ a, d = .ok a ∧ f a = b := by
  cases d with
  | ok a => exact ⟨a, rfl, by simpa [Decoded.map] using h⟩
  | bad why => cases h

/-- CORRUPT_AT is read exactly from a position in 1..7. -/
theorem decodeCorruptAt_eq_ok {r : RawOperand} {p : Nat} {i : Instr} (h : decodeCorruptAt r p = .ok i) :
    1 ≤ p ∧ p ≤ 7 ∧ ∃ x, decodeOperand 7 r = .ok x ∧ i = .corruptAt x (BitVec.ofNat 3 p) := by
  unfold decodeCorruptAt at h
  split at h
  · rename_i range
    obtain ⟨x, hx, hi⟩ := Decoded.map_eq_ok h
    exact ⟨range.1, range.2, x, hx, hi.symm⟩
  · cases h

end Sys2Proof
end

