-- ==== Sys2Proof/Laws/Operands.lean ====
section
/-! SUPPORT. Small facts about bits by position, packing, the flip of a position and the lists of symbols. -/

namespace Sys2Proof.Machine

/-- Packing and then reading position q gives the q-th bit. -/
theorem codeBit_pack7 (b1 b2 b3 b4 b5 b6 b7 : Bit) :
    codeBit (pack7 b1 b2 b3 b4 b5 b6 b7) 1 = b1 ∧ codeBit (pack7 b1 b2 b3 b4 b5 b6 b7) 2 = b2 ∧
    codeBit (pack7 b1 b2 b3 b4 b5 b6 b7) 3 = b3 ∧ codeBit (pack7 b1 b2 b3 b4 b5 b6 b7) 4 = b4 ∧
    codeBit (pack7 b1 b2 b3 b4 b5 b6 b7) 5 = b5 ∧ codeBit (pack7 b1 b2 b3 b4 b5 b6 b7) 6 = b6 ∧
    codeBit (pack7 b1 b2 b3 b4 b5 b6 b7) 7 = b7 := by
  revert b1 b2 b3 b4 b5 b6 b7; decide

/-- Packing and then reading position q gives the q-th bit. -/
theorem dataBit_pack4 (b1 b2 b3 b4 : Bit) :
    dataBit (pack4 b1 b2 b3 b4) 1 = b1 ∧ dataBit (pack4 b1 b2 b3 b4) 2 = b2 ∧ dataBit (pack4 b1 b2 b3 b4) 3 = b3 ∧
    dataBit (pack4 b1 b2 b3 b4) 4 = b4 := by
  revert b1 b2 b3 b4; decide

/-- A word is packed from its own bits. -/
theorem pack7_codeBit (c : Word7) :
    pack7 (codeBit c 1) (codeBit c 2) (codeBit c 3) (codeBit c 4) (codeBit c 5) (codeBit c 6) (codeBit c 7) = c := by
  revert c; decide

/-- A DataWord is packed from its own bits. -/
theorem pack4_dataBit (d : DataWord) : pack4 (dataBit d 1) (dataBit d 2) (dataBit d 3) (dataBit d 4) = d := by
  revert d; decide

/-- Two words with the same bits are the same word. -/
theorem word7_ext {a b : Word7} (h : ∀ q, 1 ≤ q → q ≤ 7 → codeBit a q = codeBit b q) : a = b := by
  rw [← pack7_codeBit a, ← pack7_codeBit b, h 1 (by omega) (by omega), h 2 (by omega) (by omega), h 3 (by omega) (by omega),
    h 4 (by omega) (by omega), h 5 (by omega) (by omega), h 6 (by omega) (by omega), h 7 (by omega) (by omega)]

/-- A property of the positions 1..7 holds of each when it holds of the seven. -/
theorem forall_position {P : Nat → Prop} (h1 : P 1) (h2 : P 2) (h3 : P 3) (h4 : P 4) (h5 : P 5) (h6 : P 6) (h7 : P 7) :
    ∀ q, 1 ≤ q → q ≤ 7 → P q := by
  intro q lo hi
  interval_cases q <;> assumption

/-- The flip complements position p and passes the other six through. -/
theorem codeBit_flip (c : Word7) (p : Pos) : ∀ q, 1 ≤ q → q ≤ 7 → codeBit (flip c p) q = flippedBit c p q := by
  obtain ⟨h1, h2, h3, h4, h5, h6, h7⟩ := codeBit_pack7 (flippedBit c p 1) (flippedBit c p 2) (flippedBit c p 3)
    (flippedBit c p 4) (flippedBit c p 5) (flippedBit c p 6) (flippedBit c p 7)
  exact forall_position h1 h2 h3 h4 h5 h6 h7

/-- The data positions of a codeword spell its DataWord. -/
theorem extractData_encodeWord (d : DataWord) : extractData (encodeWord d) = d := by
  revert d; decide

/-- The data bits are read from the four data positions, in order. -/
theorem dataBit_extractData (c : Word7) :
    dataBit (extractData c) 1 = codeBit c 3 ∧ dataBit (extractData c) 2 = codeBit c 5 ∧
    dataBit (extractData c) 3 = codeBit c 6 ∧ dataBit (extractData c) 4 = codeBit c 7 :=
  dataBit_pack4 _ _ _ _

/-- A list written from four bits is read back as the packed bits. -/
theorem readSymbols_four (b1 b2 b3 b4 : Bit) :
    readSymbols 4 [symbolOf b1, symbolOf b2, symbolOf b3, symbolOf b4] = some (pack4 b1 b2 b3 b4) := by
  revert b1 b2 b3 b4; decide

/-- A list written from seven bits is read back as the packed bits. -/
theorem readSymbols_seven (b1 b2 b3 b4 b5 b6 b7 : Bit) :
    readSymbols 7 [symbolOf b1, symbolOf b2, symbolOf b3, symbolOf b4, symbolOf b5, symbolOf b6, symbolOf b7] =
      some (pack7 b1 b2 b3 b4 b5 b6 b7) := by
  revert b1 b2 b3 b4 b5 b6 b7; decide

/-- A word written as a list is read back as the word. -/
theorem readSymbols_unpack7 (c : Word7) : readSymbols 7 (unpack7 c) = some c := by
  revert c; decide

/-- What cannot be read is what the validation rejects. -/
theorem readSymbols_eq_none {n : Nat} {xs : List Symbol} : readSymbols n xs = none ↔ isValidInput n xs = false := by
  unfold readSymbols
  cases isValidInput n xs <;> simp

/-- The number read is the list's numeral. -/
theorem readSymbols_eq_some {n : Nat} {xs : List Symbol} {v : BitVec n} :
    readSymbols n xs = some v ↔ isValidInput n xs = true ∧ v = BitVec.ofNat n (numeral xs) := by
  unfold readSymbols
  cases isValidInput n xs <;> simp [eq_comm]

/-- A symbol is binary when it is 0 or 1. -/
theorem isBinary_eq_false {x : Symbol} : isBinary x = false ↔ x ≠ .zero ∧ x ≠ .one := by
  cases x <;> simp [isBinary]

end Sys2Proof.Machine
end

