-- ==== Sys2Proof/Laws/State.lean ====
section
/-! SUPPORT. What each operation over the state leaves in each field. -/

namespace Sys2Proof.Machine

variable (s : State)

@[simp] theorem State.driveData_dataIn (d : DataWord) : (s.driveData d).dataIn = d := rfl
@[simp] theorem State.driveData_receivedIn (d : DataWord) : (s.driveData d).receivedIn = s.receivedIn := rfl
@[simp] theorem State.driveData_apiFrontEnd (d : DataWord) : (s.driveData d).apiFrontEnd = s.apiFrontEnd := rfl
@[simp] theorem State.driveData_program (d : DataWord) : (s.driveData d).program = s.program := rfl
@[simp] theorem State.driveData_results (d : DataWord) : (s.driveData d).results = s.results := rfl

@[simp] theorem State.driveReceived_dataIn (c : Word7) : (s.driveReceived c).dataIn = s.dataIn := rfl
@[simp] theorem State.driveReceived_receivedIn (c : Word7) : (s.driveReceived c).receivedIn = c := rfl
@[simp] theorem State.driveReceived_apiFrontEnd (c : Word7) : (s.driveReceived c).apiFrontEnd = s.apiFrontEnd := rfl
@[simp] theorem State.driveReceived_program (c : Word7) : (s.driveReceived c).program = s.program := rfl
@[simp] theorem State.driveReceived_results (c : Word7) : (s.driveReceived c).results = s.results := rfl

@[simp] theorem State.record_dataIn (i : Instr) (o : Output) : (s.record i o).dataIn = s.dataIn := rfl
@[simp] theorem State.record_receivedIn (i : Instr) (o : Output) : (s.record i o).receivedIn = s.receivedIn := rfl
@[simp] theorem State.record_apiFrontEnd (i : Instr) (o : Output) : (s.record i o).apiFrontEnd = s.apiFrontEnd := rfl
@[simp] theorem State.record_program (i : Instr) (o : Output) : (s.record i o).program = s.program := rfl
@[simp] theorem State.record_results (i : Instr) (o : Output) : (s.record i o).results = s.results ++ [⟨i, o⟩] := rfl

@[simp] theorem State.raiseInvalidInput_dataIn (i : Instr) : (s.raiseInvalidInput i).dataIn = s.dataIn := rfl
@[simp] theorem State.raiseInvalidInput_receivedIn (i : Instr) : (s.raiseInvalidInput i).receivedIn = s.receivedIn := rfl
@[simp] theorem State.raiseInvalidInput_apiFrontEnd (i : Instr) : (s.raiseInvalidInput i).apiFrontEnd = s.apiFrontEnd := rfl
@[simp] theorem State.raiseInvalidInput_program (i : Instr) : (s.raiseInvalidInput i).program = s.program := rfl
@[simp] theorem State.raiseInvalidInput_results (i : Instr) :
    (s.raiseInvalidInput i).results = s.results ++ [⟨i, .invalidInput⟩] := rfl

@[simp] theorem State.advance_dataIn : s.advance.dataIn = s.dataIn := rfl
@[simp] theorem State.advance_receivedIn : s.advance.receivedIn = s.receivedIn := rfl
@[simp] theorem State.advance_apiFrontEnd : s.advance.apiFrontEnd = s.apiFrontEnd := rfl
@[simp] theorem State.advance_program : s.advance.program = s.program.tail := rfl
@[simp] theorem State.advance_results : s.advance.results = s.results := rfl

end Sys2Proof.Machine
end

