-- ==== Sys2Proof/Laws/Ops.lean ====
section
/-! SUPPORT. What each shared operation can do, said once. -/

namespace Sys2Proof.Machine

variable {n : Nat} {s t : State} {i : Instr} {k : BitVec n → State}

/-- At the ports an operand is the value on the wires. -/
theorem withOperand_port (v : BitVec n) : withOperand s i (.port v) k = .next (k v) := rfl

/-- A valid list is the packed value. -/
theorem withOperand_list {xs : List Symbol} {v : BitVec n} (front : s.apiFrontEnd = true) (read : readSymbols n xs = some v) :
    withOperand s i (.symbols xs) k = .next (k v) := by
  simp [withOperand, front, read]

/-- A list that cannot be read raises InvalidInput, before anything else. -/
theorem withOperand_invalid {xs : List Symbol} (front : s.apiFrontEnd = true) (read : readSymbols n xs = none) :
    withOperand s i (.symbols xs) k = .next (s.raiseInvalidInput i) := by
  simp [withOperand, front, read]

/-- Without the front end there is no list-level call. -/
theorem withOperand_absent {xs : List Symbol} (front : s.apiFrontEnd = false) :
    withOperand s i (.symbols xs) k = .refused .frontEndAbsent := by
  simp [withOperand, front]

/-- Everything reading an operand can do when it answers a next state. -/
theorem withOperand_next {x : Operand n} (h : withOperand s i x k = .next t) :
    (∃ v, x = .port v ∧ t = k v) ∨
    (∃ xs v, x = .symbols xs ∧ s.apiFrontEnd = true ∧ readSymbols n xs = some v ∧ t = k v) ∨
    (∃ xs, x = .symbols xs ∧ s.apiFrontEnd = true ∧ readSymbols n xs = none ∧ t = s.raiseInvalidInput i) := by
  cases x with
  | port v => exact .inl ⟨v, rfl, by simpa [withOperand] using h.symm⟩
  | symbols xs =>
    cases front : s.apiFrontEnd with
    | false => rw [withOperand_absent front] at h; cases h
    | true =>
      cases read : readSymbols n xs with
      | none => rw [withOperand_invalid front read] at h; cases h; exact .inr (.inr ⟨xs, rfl, rfl, read, rfl⟩)
      | some v => rw [withOperand_list front read] at h; cases h; exact .inr (.inl ⟨xs, v, rfl, rfl, read, rfl⟩)

/-- A drawn position is never 0. -/
theorem positionOf_ne_zero (k : Fin 7) : positionOf k ≠ 0 := by
  revert k; decide

/-- Every position can be drawn. -/
theorem positionOf_surjective {p : Pos} (hp : p ≠ 0) : ∃ k, positionOf k = p := by
  revert p; decide

/-- The channel's draw is in 1..7, whatever its source (42_channel_env.md R112). -/
theorem drawPosition_ne_zero (rng : RandomSource) : drawPosition rng ≠ 0 := by
  cases rng <;> exact positionOf_ne_zero _

/-- Every position is the draw of some source. -/
theorem drawPosition_surjective {p : Pos} (hp : p ≠ 0) : ∃ rng : RandomSource, drawPosition rng = p :=
  let ⟨k, hk⟩ := positionOf_surjective hp
  ⟨.injected k, hk⟩

end Sys2Proof.Machine
end

