-- ==== Sys2Proof/Laws/Exec.lean ====
section
/-! SUPPORT. Each meaning at the ports and on a list, and everything an operation can do when it answers a next state. -/

namespace Sys2Proof.Machine

variable {s t : State}

/-- ENC on a value of its port. -/
theorem exec_enc_port (d : DataWord) :
    exec (.enc (.port d)) s = .next ((s.driveData d).record (.enc (.port d)) (.codeword (encodeWord d))) := rfl

/-- DEC on a value of its port. -/
theorem exec_dec_port (c : Word7) :
    exec (.dec (.port c)) s = .next ((s.driveReceived c).record (.dec (.port c))
      (.decoded (correctWord c) (syndromeValue c) (errorFlag (syndromeValue c)) (extractData (correctWord c)))) := rfl

/-- CORRUPT_AT on a word and a position. -/
theorem exec_corruptAt_port (c : Word7) {p : Pos} (hp : p ≠ 0) :
    exec (.corruptAt (.port c) p) s = .next (s.record (.corruptAt (.port c) p) (.word (flip c p))) := by
  simp only [exec, execCorruptAt]
  rw [if_neg hp]
  rfl

/-- CORRUPT on a word. -/
theorem exec_corrupt_port (c : Word7) (rng : RandomSource) :
    exec (.corrupt ⟨.port c, rng⟩) s =
      .next (s.record (.corrupt ⟨.port c, rng⟩) (.wordAt (flip c (drawPosition rng)) (drawPosition rng))) := rfl

/-- ENC on a valid list. -/
theorem exec_enc_list {xs : List Symbol} {d : DataWord} (front : s.apiFrontEnd = true) (read : readSymbols 4 xs = some d) :
    exec (.enc (.symbols xs)) s =
      .next ((s.driveData d).record (.enc (.symbols xs)) (.list (unpack7 (encodeWord d)))) :=
  withOperand_list front read

/-- DEC on a valid list. -/
theorem exec_dec_list {xs : List Symbol} {c : Word7} (front : s.apiFrontEnd = true) (read : readSymbols 7 xs = some c) :
    exec (.dec (.symbols xs)) s = .next ((s.driveReceived c).record (.dec (.symbols xs))
      (.listAt (unpack7 (correctWord c)) (errorPosition (syndromeValue c)))) :=
  withOperand_list front read

/-- CORRUPT_AT on a valid list. -/
theorem exec_corruptAt_list {xs : List Symbol} {c : Word7} {p : Pos} (hp : p ≠ 0) (front : s.apiFrontEnd = true)
    (read : readSymbols 7 xs = some c) :
    exec (.corruptAt (.symbols xs) p) s =
      .next (s.record (.corruptAt (.symbols xs) p) (.listAt (unpack7 (flip c p)) (some p))) := by
  simp only [exec, execCorruptAt]
  rw [if_neg hp]
  exact withOperand_list front read

/-- CORRUPT on a valid list. -/
theorem exec_corrupt_list {xs : List Symbol} {c : Word7} (rng : RandomSource) (front : s.apiFrontEnd = true)
    (read : readSymbols 7 xs = some c) :
    exec (.corrupt ⟨.symbols xs, rng⟩) s = .next (s.record (.corrupt ⟨.symbols xs, rng⟩)
      (.listAt (unpack7 (flip c (drawPosition rng))) (some (drawPosition rng)))) :=
  withOperand_list front read

/-- Everything ENC can do when it answers a next state. -/
theorem execEnc_next {x : Operand 4} (h : execEnc x s = .next t) :
    (∃ d, (x = .port d ∨ ∃ xs, x = .symbols xs ∧ s.apiFrontEnd = true ∧ readSymbols 4 xs = some d) ∧
      t = (s.driveData d).record (.enc x) (encOutput x (s.driveData d))) ∨
    (∃ xs, x = .symbols xs ∧ s.apiFrontEnd = true ∧ readSymbols 4 xs = none ∧ t = s.raiseInvalidInput (.enc x)) := by
  obtain ⟨d, hx, ht⟩ | ⟨xs, d, hx, front, read, ht⟩ | bad := withOperand_next h
  · exact .inl ⟨d, .inl hx, ht⟩
  · exact .inl ⟨d, .inr ⟨xs, hx, front, read⟩, ht⟩
  · exact .inr bad

/-- Everything DEC can do when it answers a next state. -/
theorem execDec_next {x : Operand 7} (h : execDec x s = .next t) :
    (∃ c, (x = .port c ∨ ∃ xs, x = .symbols xs ∧ s.apiFrontEnd = true ∧ readSymbols 7 xs = some c) ∧
      t = (s.driveReceived c).record (.dec x) (decOutput x (s.driveReceived c))) ∨
    (∃ xs, x = .symbols xs ∧ s.apiFrontEnd = true ∧ readSymbols 7 xs = none ∧ t = s.raiseInvalidInput (.dec x)) := by
  obtain ⟨c, hx, ht⟩ | ⟨xs, c, hx, front, read, ht⟩ | bad := withOperand_next h
  · exact .inl ⟨c, .inl hx, ht⟩
  · exact .inl ⟨c, .inr ⟨xs, hx, front, read⟩, ht⟩
  · exact .inr bad

/-- Everything CORRUPT_AT can do when it answers a next state. -/
theorem execCorruptAt_next {x : Operand 7} {p : Pos} (h : execCorruptAt x p s = .next t) :
    p ≠ 0 ∧
    ((∃ c, (x = .port c ∨ ∃ xs, x = .symbols xs ∧ s.apiFrontEnd = true ∧ readSymbols 7 xs = some c) ∧
      t = s.record (.corruptAt x p) (corruptAtOutput x c p)) ∨
    (∃ xs, x = .symbols xs ∧ s.apiFrontEnd = true ∧ readSymbols 7 xs = none ∧
      t = s.raiseInvalidInput (.corruptAt x p))) := by
  unfold execCorruptAt at h
  split at h
  · cases h
  · rename_i hp
    refine ⟨hp, ?_⟩
    obtain ⟨c, hx, ht⟩ | ⟨xs, c, hx, front, read, ht⟩ | bad := withOperand_next h
    · exact .inl ⟨c, .inl hx, ht⟩
    · exact .inl ⟨c, .inr ⟨xs, hx, front, read⟩, ht⟩
    · exact .inr bad

/-- Everything CORRUPT can do when it answers a next state. -/
theorem execCorrupt_next {x : CorruptInput} (h : execCorrupt x s = .next t) :
    (∃ c, (x.word = .port c ∨ ∃ xs, x.word = .symbols xs ∧ s.apiFrontEnd = true ∧ readSymbols 7 xs = some c) ∧
      t = s.record (.corrupt x) (corruptOutput x.word c (drawPosition x.rng))) ∨
    (∃ xs, x.word = .symbols xs ∧ s.apiFrontEnd = true ∧ readSymbols 7 xs = none ∧ t = s.raiseInvalidInput (.corrupt x)) := by
  obtain ⟨c, hx, ht⟩ | ⟨xs, c, hx, front, read, ht⟩ | bad := withOperand_next h
  · exact .inl ⟨c, .inl hx, ht⟩
  · exact .inl ⟨c, .inr ⟨xs, hx, front, read⟩, ht⟩
  · exact .inr bad

end Sys2Proof.Machine
end

