-- ==== Sys2Proof/Laws/PerInstr.lean ====
section
/-! SUPPORT. What holds of every operation as syntax, one lemma per constructor. -/

namespace Sys2Proof.Laws

/-- What is not well-formed cannot be presented: decoding its encoding is rejected by name. -/
def IllFormedRejected.Statement (i : Instr) : Prop := i.wf = false → decode (encode i) = .bad .positionOutOfRange

theorem IllFormedRejected.enc (x : Operand 4) : IllFormedRejected.Statement (.enc x) := by
  intro h; cases h

theorem IllFormedRejected.dec (x : Operand 7) : IllFormedRejected.Statement (.dec x) := by
  intro h; cases h

theorem IllFormedRejected.corruptAt (x : Operand 7) (p : Pos) : IllFormedRejected.Statement (.corruptAt x p) := by
  intro h
  have hp : p = 0 := by simpa [Instr.wf] using h
  subst hp
  rfl

theorem IllFormedRejected.corrupt (x : CorruptInput) : IllFormedRejected.Statement (.corrupt x) := by
  intro h; cases h

end Sys2Proof.Laws
end

