-- ==== Sys2Proof/Laws/Safety.lean ====
section
/-! SUPPORT. The two readings of a bad list-level input, and what a step can do. -/

namespace Sys2Proof

open Sys2Proof.Machine

/-- The validation rejects exactly the bad inputs (60_exceptions.md R140). -/
theorem readSymbols_none_iff_bad {n : Nat} {xs : List Symbol} : readSymbols n xs = none ↔ BadInput n xs := by
  rw [readSymbols_eq_none]
  simp only [isValidInput, Bool.and_eq_false_iff, List.all_eq_false, BadInput, beq_eq_false_iff_ne, ne_eq,
    Bool.not_eq_true, isBinary_eq_false]

/-- The flip differs from its word exactly at the flipped position. -/
theorem differExactlyAt_flip (c : Word7) {p : Pos} (hp : p ≠ 0) : DifferExactlyAt c (flip c p) p := by
  refine ⟨hp, fun q lo hi => ?_⟩
  rw [codeBit_flip c p q lo hi, flippedBit]
  split <;> simp_all

/-- The operation of a line whose operands exist is what the request decodes to. -/
theorem fetchLine_eq {results : List Record} {l : Line} {x : RawOperand} {y : SecondOperand}
    (hx : l.source.resolve results = some x) (hy : l.second.resolve results = some y) :
    fetchLine results l = .ofDecoded (decode ⟨l.row, x, y⟩) := by
  simp [fetchLine, hx, hy]

/-- A line one of whose operands does not exist has no input. -/
theorem fetchLine_noInput {results : List Record} {l : Line}
    (h : l.source.resolve results = none ∨ l.second.resolve results = none) : fetchLine results l = .noInput := by
  unfold fetchLine
  split <;> simp_all

/-- A line is never the end of the run. -/
theorem fetchLine_ne_endOfRun (results : List Record) (l : Line) : fetchLine results l ≠ .endOfRun := by
  unfold fetchLine
  split
  · simp
  · simp
  · cases decode _ <;> simp [Fetched.ofDecoded]

/-- A step on a line whose request does not decode is refused by the decoder's name. -/
theorem step_of_decode_bad {s : State} {l : Line} {ls : List Line} {x : RawOperand} {y : SecondOperand} {why : DecodeError}
    (hp : s.program = l :: ls) (hx : l.source.resolve s.results = some x) (hy : l.second.resolve s.results = some y)
    (hi : decode ⟨l.row, x, y⟩ = .bad why) : step s = .refused (.undecodable why) := by
  simp [step, fetch, hp, fetchLine_eq hx hy, hi, Fetched.ofDecoded]

/-- A step on a line one of whose operands does not exist faults. -/
theorem step_of_noInput {s : State} {l : Line} {ls : List Line} (hp : s.program = l :: ls)
    (h : l.source.resolve s.results = none ∨ l.second.resolve s.results = none) : step s = .fault .inputMissing := by
  simp [step, fetch, hp, fetchLine_noInput h]

/-- Everything a step can do when it answers a next state: the run has ended, or the fetched operation is evaluated. -/
theorem step_next {s t : State} (h : step s = .next t) :
    (s.program = [] ∧ t = s) ∨ (∃ l ls i, s.program = l :: ls ∧ fetchLine s.results l = .instr i ∧ exec i s.advance = .next t) := by
  unfold step fetch at h
  cases hp : s.program with
  | nil => simp only [hp] at h; cases h; exact .inl ⟨rfl, rfl⟩
  | cons l ls =>
    simp only [hp] at h
    cases hf : fetchLine s.results l with
    | endOfRun => exact absurd hf (fetchLine_ne_endOfRun _ _)
    | noInput => simp [hf] at h
    | bad why => simp [hf] at h
    | instr i => simp only [hf] at h; exact .inr ⟨l, ls, i, rfl, hf, h⟩

end Sys2Proof
end

