-- ==== Sys2Proof/Tests/Slice0.lean ====
section
/-! SUPPORT. Small tests. Every expected value is the spec's: spec/95_test_vectors.md, spec/40_encoder.md R68 and the encodings of
spec/30_encoding.md R41, R43. Then, for every statement with hypotheses, a state and operands that meet them together. -/

namespace Sys2Proof.Tests

open Sys2Proof.Machine

/-- The answer of an operation, if it completes. -/
def answer : Host.Outcome State Fault Refusal → Option Output
  | .next t => t.results.getLast?.map Record.output
  | .fault _ => none
  | .refused _ => none

/-- The refusal of an operation, if it is refused. -/
def refusal : Host.Outcome State Fault Refusal → Option Refusal
  | .next _ => none
  | .fault _ => none
  | .refused r => some r

/-- The fault of a step, if it faults. -/
def faultOf : Host.Outcome State Fault Refusal → Option Fault
  | .next _ => none
  | .fault f => some f
  | .refused _ => none

/-- A state that holds one answer and has one line left. -/
def withLine (i : Instr) (o : Output) (l : Line) : State := { State.reset with results := [⟨i, o⟩], program := [l] }

/-- A state without the list-level front end. -/
def withoutFrontEnd : State := { State.reset with apiFrontEnd := false }

/-- The list 0 1 1 0 0 1 1 of 95_test_vectors.md section 6. -/
def codewordList : List Symbol := [.zero, .one, .one, .zero, .zero, .one, .one]

/-! Well-formedness: the one check, and a term it refuses. -/

theorem test_wf_refuses_position_zero : Instr.wf (.corruptAt (.port 0x33) 0) = false := by decide

theorem test_wf_accepts_position_seven : Instr.wf (.corruptAt (.port 0x33) 7) = true := by decide

/-! Decoding: operands written bit by bit from the patterns abcd (R41) and pqarbcd (R43). -/

/-- abcd with d1 = 1, d2 = 0, d3 = 1, d4 = 1. -/
theorem test_decode_enc : decode ⟨.enc, .packed 4 0b1011, .absent⟩ = .ok (.enc (.port (pack4 true false true true))) := by decide

/-- pqarbcd with r1 = 0, r2 = 1, d1 = 1, r3 = 0, d2 = 1, d3 = 1, d4 = 1. -/
theorem test_decode_dec : decode ⟨.dec, .packed 7 0b0110111, .absent⟩ =
    .ok (.dec (.port (pack7 false true true false true true true))) := by decide

/-- pqarbcd with only p (r1, position 1) set, and position 7. -/
theorem test_decode_corruptAt : decode ⟨.corruptAt, .packed 7 0b1000000, .position 7⟩ =
    .ok (.corruptAt (.port (pack7 true false false false false false false)) 7) := by decide

/-- pqarbcd with only r (r3, position 4) set. -/
theorem test_decode_corrupt : decode ⟨.corrupt, .packed 7 0b0001000, .random (.generator 3)⟩ =
    .ok (.corrupt ⟨.port (pack7 false false false true false false false), .generator 3⟩) := by decide

theorem test_decode_list : decode ⟨.enc, .symbols [.one, .zero], .absent⟩ = .ok (.enc (.symbols [.one, .zero])) := by decide

theorem test_decode_rejects_wide : decode ⟨.enc, .packed 4 16, .absent⟩ = .bad .operandTooWide ∧
    decode ⟨.dec, .packed 7 128, .absent⟩ = .bad .operandTooWide := by decide

/-- 20_memory.md R33: exactly 4 bits into the encoder and exactly 7 into the decoder and the channel. -/
theorem test_decode_rejects_another_width : decode ⟨.enc, .packed 7 0b0001111, .absent⟩ = .bad .widthMismatch ∧
    decode ⟨.dec, .packed 4 0b1111, .absent⟩ = .bad .widthMismatch ∧
    decode ⟨.corrupt, .packed 8 1, .random (.injected 0)⟩ = .bad .widthMismatch := by decide

theorem test_decode_rejects_position : decode ⟨.corruptAt, .packed 7 0x33, .position 8⟩ = .bad .positionOutOfRange ∧
    decode ⟨.corruptAt, .packed 7 0x33, .absent⟩ = .bad .positionMissing ∧
    decode ⟨.corrupt, .packed 7 0x33, .position 1⟩ = .bad .randomSourceMissing ∧
    decode ⟨.dec, .packed 7 0x33, .position 1⟩ = .bad .secondNotAnOperand := by decide

theorem test_table_words : decodeTableWord 4 0xB = some (.enc (.port 0xB)) ∧ decodeTableWord 7 0x33 = some (.dec (.port 0x33)) ∧
    decodeTableWord 8 0x37 = some (.dec (.port 0x37)) ∧ decodeTableWord 8 0x80 = none := by decide

/-! Meanings. -/

/-- S1: ENC 1011 is 0110011. -/
theorem test_enc_source_example : answer (exec (.enc (.port 0xB)) State.reset) = some (.codeword 0x33) := by decide

/-- The row 1000 of R68: 1110000. -/
theorem test_enc_d1_only : answer (exec (.enc (.port 0x8)) State.reset) = some (.codeword 0x70) := by decide

/-- S3: DEC 0110111 is 0110011, position 5, flag 1, data 1011. -/
theorem test_dec_source_example : answer (exec (.dec (.port 0x37)) State.reset) = some (.decoded 0x33 5 1 0xB) := by decide

/-- Section 3, row 0x3E: position 6, corrected 0111100, data 1100 (s1, s2, s3 = 0, 1, 1: a swapped significance would say 3). -/
theorem test_dec_significance : answer (exec (.dec (.port 0x3E)) State.reset) = some (.decoded 0x3C 6 1 0xC) := by decide

/-- Section 5: position 4 of 0110011 flipped is 0111011. -/
theorem test_corruptAt_position_four : answer (exec (.corruptAt (.port 0x33) 4) State.reset) = some (.word 0x3B) := by decide

/-- Section 5, corner case: CORRUPT_AT on a word that is no codeword, position 3 of 0110111. -/
theorem test_corruptAt_noncodeword : answer (exec (.corruptAt (.port 0x37) 3) State.reset) = some (.word 0x27) := by decide

/-- Section 5: CORRUPT with the draw 5. -/
theorem test_corrupt_draw_five : answer (exec (.corrupt ⟨.port 0x33, .injected 4⟩) State.reset) = some (.wordAt 0x37 5) := by decide

/-- Section 5: CORRUPT with the draw 1. -/
theorem test_corrupt_draw_one : answer (exec (.corrupt ⟨.port 0x33, .injected 0⟩) State.reset) = some (.wordAt 0x73 1) := by decide

/-- Section 6: the valid lists. -/
theorem test_list_forms :
    answer (exec (.enc (.symbols [.one, .zero, .one, .one])) State.reset) = some (.list codewordList) ∧
    answer (exec (.dec (.symbols codewordList)) State.reset) = some (.listAt codewordList none) ∧
    answer (exec (.dec (.symbols [.zero, .one, .one, .zero, .one, .one, .one])) State.reset) =
      some (.listAt codewordList (some 5)) ∧
    answer (exec (.corruptAt (.symbols codewordList) 5) State.reset) =
      some (.listAt [.zero, .one, .one, .zero, .one, .one, .one] (some 5)) := by decide

/-- Section 6: the invalid lists. -/
theorem test_invalid_input :
    answer (exec (.enc (.symbols [.one, .zero, .one])) State.reset) = some .invalidInput ∧
    answer (exec (.enc (.symbols [.one, .zero, .other 2, .one])) State.reset) = some .invalidInput ∧
    answer (exec (.enc (.symbols codewordList)) State.reset) = some .invalidInput ∧
    answer (exec (.dec (.symbols [.one, .zero, .one, .one])) State.reset) = some .invalidInput ∧
    answer (exec (.corrupt ⟨.symbols [.zero, .one, .one, .zero, .zero, .one, .other 2], .injected 0⟩) State.reset) =
      some .invalidInput := by decide

/-- P2, line 3: the decoder gets the corrupted word that line 2 answered. -/
theorem test_step_carries_word :
    answer (step (withLine (.corruptAt (.port 0x33) 5) (.word 0x37) ⟨.dec, .wordOf 0, .absent⟩)) =
      some (.decoded 0x33 5 1 0xB) := by decide

/-- The position that the decoder detected, handed to CORRUPT_AT: the word flipped there again is 0110111. -/
theorem test_step_carries_position :
    answer (step (withLine (.dec (.port 0x37)) (.decoded 0x33 5 1 0xB) ⟨.corruptAt, .wordOf 0, .positionOf 0⟩)) =
      some (.word 0x37) := by decide

theorem test_step_runs_fetch_word : answer (step (State.reset.withFetchWord 4 0xB)) = some (.codeword 0x33) := by decide

/-! Witnesses: each statement's hypotheses are met. -/

theorem test_witness_EncodeFunctionTable :
    ((0x0, 0x00, 0) : DataWord × Word7 × Nat) ∈ ([(0x0, 0x00, 0), (0xF, 0x7F, 7)] : List (DataWord × Word7 × Nat)) := by decide

theorem test_witness_EncodeIsLinear : ∃ s s' s'' : State, s''.dataIn = s.dataIn ^^^ s'.dataIn ∧ s.dataIn = 3 ∧ s'.dataIn = 5 :=
  ⟨{ State.reset with dataIn := 3 }, { State.reset with dataIn := 5 }, { State.reset with dataIn := 6 }, by decide⟩

theorem test_witness_EncodeIsLinear_zero : State.reset.dataIn = 0 := by decide

theorem test_witness_EncodeComplements : ∃ s s' : State, s'.dataIn = ~~~s.dataIn :=
  ⟨{ State.reset with dataIn := 0b1010 }, { State.reset with dataIn := 0b0101 }, by decide⟩

theorem test_witness_EncodeIsInjectiveWithSixteenCodewords : State.reset.codewordOut = withoutFrontEnd.codewordOut := by decide

theorem test_witness_CodewordsDifferInThreePositions : State.reset.dataIn ≠ { State.reset with dataIn := 8 }.dataIn := by decide

theorem test_witness_DecodeComputesSyndrome : IsCodeword 0x33 ∧ (7 : Pos) ≠ 0 := ⟨⟨0xB, by decide⟩, by decide⟩

theorem test_witness_SyndromeValueIsWeighted : IsCodeword 0x7F ∧ (1 : Pos) ≠ 0 := ⟨⟨0xF, by decide⟩, by decide⟩

theorem test_witness_FlagAndPositionFollowReceivedWord : syndromeValue 0x37 ≠ 0 ∧ syndromeValue 0x33 = 0 := by decide

theorem test_witness_FlagAndPositionFollowReceivedWord_others :
    (∀ x, Instr.enc (.port 0xB) ≠ .dec x) ∧ ∃ t, exec (.enc (.port 0xB)) State.reset = .next t :=
  ⟨by simp, _, rfl⟩

theorem test_witness_DecodeReturnsCodewordUnchanged : syndromeValue 0x33 = 0 := by decide

theorem test_witness_DecodeFlipsTheNamedPosition : syndromeValue 0x01 = 7 ∧ syndromeValue 0x40 = 1 := by decide

theorem test_witness_DecodeFlipsTheNamedPosition_other : (2 : Nat) ≠ (syndromeValue 0x40).toNat := by decide

theorem test_witness_CorrectedOutPositionByPosition : 1 ≤ 7 ∧ 7 ≤ 7 := by decide

theorem test_witness_DataOutIsTakenAfterCorrection : syndromeValue 0x0C = 1 ∧ syndromeValue 0x05 = 2 ∧ syndromeValue 0x07 = 4 := by
  decide

theorem test_witness_ParityErrorIsCorrectedAndLeavesData : (4 : Pos) = 1 ∨ (4 : Pos) = 2 ∨ (4 : Pos) = 4 := by decide

theorem test_witness_CorruptAtFlipsTheGivenPosition : (1 : Pos) ≠ 0 ∧ (7 : Pos) ≠ 0 := by decide

theorem test_witness_CorruptHasSevenOutcomes_pair : (1 : Pos) ≠ 0 ∧ (7 : Pos) ≠ 0 ∧ (1 : Pos) ≠ 7 := by decide

theorem test_witness_CorruptHasSevenOutcomes_flip : flip 0x33 5 = 0x37 := by decide

theorem test_witness_CorruptReportsTheOneDifference :
    ∃ t, exec (.corrupt ⟨.port 0x33, .injected 6⟩) State.reset = .next t := ⟨_, rfl⟩

theorem test_witness_EveryPortInputIsLegal : (7 : Pos) ≠ 0 := by decide

theorem test_witness_InvalidInputIsRaisedExactlyOnBadInput : State.reset.apiFrontEnd = true ∧
    BadInput 4 [.one, .zero, .other 2, .one] ∧ BadInput 7 [.one] ∧ (5 : Pos) ≠ 0 :=
  ⟨rfl, .inr ⟨.other 2, by decide⟩, .inl (by decide), by decide⟩

theorem test_witness_EncodeListForm : State.reset.apiFrontEnd = true ∧ BadInput 4 [] := ⟨rfl, .inl (by decide)⟩

theorem test_witness_DecodeListForm : State.reset.apiFrontEnd = true ∧ BadInput 7 [.zero, .one, .one, .zero, .other 9, .one, .one] :=
  ⟨rfl, .inr ⟨.other 9, by decide⟩⟩

theorem test_witness_CorruptRejectsABadListBeforeDrawing : State.reset.apiFrontEnd = true ∧ BadInput 7 [] :=
  ⟨rfl, .inl (by decide)⟩

theorem test_witness_CorruptListForms : State.reset.apiFrontEnd = true ∧ (7 : Pos) ≠ 0 := by decide

theorem test_witness_ListFormsStopWithoutFrontEnd : withoutFrontEnd.apiFrontEnd = false ∧ (1 : Pos) ≠ 0 := by decide

theorem test_witness_AFailedCallLeavesNothingBehind : ∃ t u,
    exec (.enc (.symbols [])) State.reset = .next t ∧ LastAnswer t (.enc (.symbols [])) .invalidInput ∧
    exec (.dec (.port 0x37)) State.reset = .next u ∧ LastAnswer u (.dec (.port 0x37)) (.decoded 0x33 5 1 0xB) :=
  ⟨_, _, rfl, rfl, rfl, rfl⟩

theorem test_witness_WellFormedOperationsAreTotal :
    Instr.wf (.corruptAt (.symbols []) 1) = true ∧ State.reset.apiFrontEnd = true := by decide

theorem test_witness_EverySingleErrorIsCorrected : (1 : Pos) ≠ 0 ∧ (7 : Pos) ≠ 0 := by decide

theorem test_witness_AllZeroBoundary : (1 : Pos) ≠ 0 ∧ (7 : Pos) ≠ 0 := by decide

/-- Patterns of two, of three with exclusive or 0 (positions 1, 2, 3), and of three others (1, 2, 4). -/
theorem test_witness_TwoOrMoreErrorsAreMiscorrected :
    weight 0b1100000 = 2 ∧ (weight 0b1110000 = 3 ∧ positionXor 0b1110000 = 0) ∧
    (weight 0b1101000 = 3 ∧ positionXor 0b1101000 ≠ 0) ∧ 2 ≤ weight 0b1111111 := by decide

theorem test_witness_DecoderFindsTheNearestCodeword :
    IsCodeword { State.reset with receivedIn := 0x33 }.receivedIn ∧
    ¬ IsCodeword { State.reset with receivedIn := 0x37 }.receivedIn ∧ IsCodeword 0x33 ∧ distance 0x37 0x33 = 1 := by
  refine ⟨⟨0xB, by decide⟩, ?_, ⟨0xB, by decide⟩, by decide⟩
  unfold IsCodeword; decide

theorem test_witness_FrameOfEveryOperation : (∃ t, exec (.enc (.port 1)) State.reset = .next t) ∧
    (∃ t, exec (.dec (.port 1)) State.reset = .next t) ∧ (∃ t, exec (.corruptAt (.port 1) 1) State.reset = .next t) ∧
    (∃ t, exec (.corrupt ⟨.port 1, .generator 0⟩) State.reset = .next t) ∧
    ∃ t, exec (.dec (.symbols [])) State.reset = .next t ∧ LastAnswer t (.dec (.symbols [])) .invalidInput :=
  ⟨⟨_, rfl⟩, ⟨_, rfl⟩, ⟨_, rfl⟩, ⟨_, rfl⟩, _, rfl, rfl⟩

theorem test_witness_AnswersDependOnlyOnTheInput :
    (∃ t, exec (.corrupt ⟨.port 1, .generator 2⟩) State.reset = .next t) ∧
    ∃ t, exec (.corrupt ⟨.port 1, .generator 2⟩) withoutFrontEnd = .next t :=
  ⟨⟨_, rfl⟩, _, rfl⟩

theorem test_witness_IndependentOperationsCommute :
    (∀ x y, ¬ (Instr.enc (.port 1) = .enc x ∧ Instr.corrupt ⟨.port 2, .generator 0⟩ = .enc y)) ∧
    (∀ x y, ¬ (Instr.enc (.port 1) = .dec x ∧ Instr.corrupt ⟨.port 2, .generator 0⟩ = .dec y)) ∧
    ∃ t u t' u', exec (.enc (.port 1)) State.reset = .next t ∧ exec (.corrupt ⟨.port 2, .generator 0⟩) t = .next u ∧
      exec (.corrupt ⟨.port 2, .generator 0⟩) State.reset = .next t' ∧ exec (.enc (.port 1)) t' = .next u' :=
  ⟨by simp, by simp, _, _, _, _, rfl, rfl, rfl, rfl⟩

/-- Two calls of CORRUPT, with one source. -/
theorem test_witness_IndependentOperationsCommute_channel : ∃ t u,
    exec (.corrupt ⟨.port 1, .injected 0⟩) State.reset = .next t ∧ exec (.corrupt ⟨.port 2, .injected 0⟩) t = .next u :=
  ⟨_, _, rfl, rfl⟩

theorem test_witness_StepRunsTheDecodedOperation :
    { State.reset with program := [⟨.corruptAt, .packed 7 0x33, .position 5⟩] }.program =
      ⟨.corruptAt, .packed 7 0x33, .position 5⟩ :: [] ∧
    (Source.packed 7 0x33).resolve [] = some (.packed 7 0x33) ∧ (SecondSource.position 5).resolve [] = some (.position 5) ∧
    decode ⟨.corruptAt, .packed 7 0x33, .position 5⟩ = .ok (.corruptAt (.port 0x33) 5) := by decide

theorem test_witness_StepAfterTheLastOperation : State.reset.program = [] := by decide

/-- A held codeword reaches the decoder; a held codeword or corrected word reaches the channel (position 7; draw 1). -/
theorem test_witness_StepCarriesHeldValues_word :
    answer (step (withLine (.enc (.port 0xB)) (.codeword 0x33) ⟨.dec, .wordOf 0, .absent⟩)) = some (.decoded 0x33 0 0 0xB) ∧
    answer (step (withLine (.enc (.port 0xB)) (.codeword 0x33) ⟨.corruptAt, .wordOf 0, .position (7 : Pos).toNat⟩)) =
      some (.word 0x32) ∧
    answer (step (withLine (.dec (.port 0x37)) (.decoded 0x33 5 1 0xB) ⟨.corrupt, .wordOf 0, .random (.injected 0)⟩)) =
      some (.wordAt 0x73 1) ∧
    answer (step (withLine (.corrupt ⟨.port 0x33, .injected 4⟩) (.wordAt 0x37 5) ⟨.dec, .wordOf 0, .absent⟩)) =
      some (.decoded 0x33 5 1 0xB) := by decide

theorem test_witness_StepCarriesHeldValues_data :
    (withLine (.dec (.port 0x37)) (.decoded 0x33 5 1 0xB) ⟨.enc, .dataOf 0, .absent⟩).results[0]? =
      some ⟨.dec (.port 0x37), .decoded 0x33 5 1 0xB⟩ ∧
    answer (step (withLine (.dec (.port 0x37)) (.decoded 0x33 5 1 0xB) ⟨.enc, .dataOf 0, .absent⟩)) =
      some (.codeword 0x33) := by decide

/-- A held list of seven symbols: InvalidInput of the encoder, answers of the decoder and the channel (position 5; draw 5). -/
theorem test_witness_StepCarriesHeldValues_list :
    answer (step (withLine (.enc (.symbols [.one])) (.list codewordList) ⟨.enc, .listOf 0, .absent⟩)) = some .invalidInput ∧
    answer (step (withLine (.enc (.symbols [.one])) (.list codewordList) ⟨.dec, .listOf 0, .absent⟩)) =
      some (.listAt codewordList none) ∧
    answer (step (withLine (.enc (.symbols [.one])) (.list codewordList) ⟨.corruptAt, .listOf 0, .position (5 : Pos).toNat⟩)) =
      some (.listAt [.zero, .one, .one, .zero, .one, .one, .one] (some 5)) ∧
    answer (step (withLine (.dec (.symbols [])) (.listAt codewordList none) ⟨.corrupt, .listOf 0, .random (.injected 4)⟩)) =
      some (.listAt [.zero, .one, .one, .zero, .one, .one, .one] (some 5)) := by decide

/-- Positions 1 and 7, of each kind of answer that has one. -/
theorem test_witness_StepCarriesHeldValues_position :
    (Source.packed 7 0x33).resolve [] = some (encodeOperand (.port (0x33 : Word7))) ∧
    answer (step (withLine (.dec (.port 0x40)) (.decoded 0 1 1 0) ⟨.corruptAt, .packed 7 0x33, .positionOf 0⟩)) =
      some (.word 0x73) ∧
    answer (step (withLine (.corrupt ⟨.port 0x33, .injected 6⟩) (.wordAt 0x32 7) ⟨.corruptAt, .packed 7 0x33, .positionOf 0⟩)) =
      some (.word 0x32) ∧
    answer (step (withLine (.dec (.symbols [])) (.listAt codewordList (some 5)) ⟨.corruptAt, .listOf 0, .positionOf 0⟩)) =
      some (.listAt [.zero, .one, .one, .zero, .one, .one, .one] (some 5)) := by decide

theorem test_witness_StepStopsWithoutItsInput :
    { State.reset with program := [⟨.dec, .wordOf 0, .absent⟩] }.results.length ≤ 0 ∧
    faultOf (step { State.reset with program := [⟨.dec, .wordOf 0, .absent⟩] }) = some .inputMissing ∧
    faultOf (step { State.reset with program := [⟨.corruptAt, .packed 7 0, .positionOf 0⟩] }) = some .inputMissing := by decide

/-- A result that exists but has no such part, one line for each kind of source. -/
theorem test_witness_StepStopsWithoutItsInput_kind :
    faultOf (step (withLine (.enc (.symbols [])) (.list codewordList) ⟨.dec, .wordOf 0, .absent⟩)) = some .inputMissing ∧
    faultOf (step (withLine (.enc (.port 0)) (.codeword 0) ⟨.enc, .dataOf 0, .absent⟩)) = some .inputMissing ∧
    faultOf (step (withLine (.enc (.symbols [])) .invalidInput ⟨.dec, .listOf 0, .absent⟩)) = some .inputMissing ∧
    faultOf (step (withLine (.dec (.symbols [])) (.listAt codewordList none) ⟨.corruptAt, .listOf 0, .positionOf 0⟩)) =
      some .inputMissing := by decide

/-- The smallest number that does not fit each port, and the positions 0 and 8 on either side of 1..7. -/
theorem test_witness_StepStopsOnWhatCannotBeExpressed :
    refusal (step { State.reset with program := [⟨.enc, .packed 4 16, .absent⟩] }) = some (.undecodable .operandTooWide) ∧
    refusal (step { State.reset with program := [⟨.dec, .packed 7 128, .absent⟩] }) = some (.undecodable .operandTooWide) ∧
    refusal (step { State.reset with program := [⟨.corrupt, .packed 7 128, .random (.injected 0)⟩] }) =
      some (.undecodable .operandTooWide) ∧
    refusal (step { State.reset with program := [⟨.corruptAt, .packed 7 128, .position 7⟩] }) =
      some (.undecodable .operandTooWide) ∧
    refusal (step { State.reset with program := [⟨.corruptAt, .packed 7 0x33, .position 0⟩] }) =
      some (.undecodable .positionOutOfRange) ∧
    refusal (step { State.reset with program := [⟨.corruptAt, .packed 7 0x33, .position 8⟩] }) =
      some (.undecodable .positionOutOfRange) ∧
    refusal (step (withLine (.dec (.port 0x33)) (.decoded 0x33 0 0 0xB) ⟨.corruptAt, .wordOf 0, .positionOf 0⟩)) =
      some (.undecodable .positionOutOfRange) := by decide

/-- The data 1111 on the decoder's and the channel's lines, the word 0001111 on the encoder's: each would fit as a number. -/
theorem test_witness_StepStopsOnAnotherWidth :
    refusal (step (withLine (.dec (.port 0x7F)) (.decoded 0x7F 0 0 0xF) ⟨.dec, .dataOf 0, .absent⟩)) =
      some (.undecodable .widthMismatch) ∧
    refusal (step (withLine (.dec (.port 0x7F)) (.decoded 0x7F 0 0 0xF) ⟨.corrupt, .dataOf 0, .random (.injected 0)⟩)) =
      some (.undecodable .widthMismatch) ∧
    refusal (step (withLine (.dec (.port 0x7F)) (.decoded 0x7F 0 0 0xF) ⟨.corruptAt, .dataOf 0, .position 1⟩)) =
      some (.undecodable .widthMismatch) ∧
    refusal (step (withLine (.enc (.port 0x7)) (.codeword 0x0F) ⟨.enc, .wordOf 0, .absent⟩)) =
      some (.undecodable .widthMismatch) := by decide

/-- The neighbours of each port's width. -/
theorem test_witness_StepStopsOnAnotherWidth_supplied :
    refusal (step { State.reset with program := [⟨.enc, .packed 5 0, .absent⟩] }) = some (.undecodable .widthMismatch) ∧
    refusal (step { State.reset with program := [⟨.dec, .packed 6 0, .absent⟩] }) = some (.undecodable .widthMismatch) ∧
    refusal (step { State.reset with program := [⟨.corrupt, .packed 8 0, .random (.injected 0)⟩] }) =
      some (.undecodable .widthMismatch) ∧
    refusal (step { State.reset with program := [⟨.corruptAt, .packed 6 0, .position 7⟩] }) =
      some (.undecodable .widthMismatch) := by decide

theorem test_witness_CorruptPositionComesFromItsSource : (1 : Pos) ≠ 0 ∧ (7 : Pos) ≠ 0 := by decide

theorem test_witness_RequestsNeedTheirOwnSecondOperand : SecondOperand.position 1 ≠ .absent ∧
    (∀ p, SecondOperand.absent ≠ .position p) ∧ (∀ rng, SecondOperand.position 7 ≠ .random rng) := by simp

theorem test_witness_StepsOnlyAddToWhatIsHeld : ∃ t, step (State.reset.withFetchWord 7 0x37) = .next t := ⟨_, rfl⟩

theorem test_witness_DecodeOfEncodeIsTheOperation : Instr.wf (.corruptAt (.port 0x7F) 7) = true := by decide

theorem test_witness_EncodeOfDecodeIsTheRequest : decode ⟨.corruptAt, .packed 7 127, .position 7⟩ = .ok (.corruptAt (.port 127) 7) := by
  decide

theorem test_witness_StepKeepsEveryHeldValueInAgreement :
    AllAgree (State.reset.withFetchWord 7 0x37) ∧ ∃ t, step (State.reset.withFetchWord 7 0x37) = .next t :=
  ⟨(fun r h => by cases h), _, rfl⟩

end Sys2Proof.Tests
end

/-! The status ports as functions of `received_in`, and the operations that leave that port alone (10_state.md R13, R17). -/

namespace Sys2Proof.Machine

variable {s t : State}

/-- The position port in terms of the received word (10_state.md R12). -/
theorem State.errorPosOut_eq (s : State) : s.errorPosOut = syndromeValue s.receivedIn := rfl

/-- The flag port in terms of the received word (10_state.md R17). -/
theorem State.errorFlagOut_eq (s : State) : s.errorFlagOut = errorFlag (syndromeValue s.receivedIn) := rfl

theorem errorFlag_of_eq_zero {value : Pos} (h : value = 0) : errorFlag value = 0 := if_neg (not_not_intro h)

theorem errorFlag_of_ne_zero {value : Pos} (h : value ≠ 0) : errorFlag value = 1 := if_pos h

/-- Only DEC drives `received_in`: every other operation that completes leaves it, on both forms and on InvalidInput. -/
theorem exec_receivedIn_of_not_dec {i : Instr} (not_dec : ∀ x, i ≠ .dec x) (h : exec i s = .next t) :
    t.receivedIn = s.receivedIn := by
  cases i with
  | enc x => obtain ⟨d, -, rfl⟩ | ⟨xs, -, -, -, rfl⟩ := execEnc_next h <;> simp
  | dec x => exact absurd rfl (not_dec x)
  | corruptAt x p => obtain ⟨-, ⟨c, -, rfl⟩ | ⟨xs, -, -, -, rfl⟩⟩ := execCorruptAt_next h <;> simp
  | corrupt x => obtain ⟨c, -, rfl⟩ | ⟨xs, -, -, -, rfl⟩ := execCorrupt_next h <;> simp

end Sys2Proof.Machine

section

open Sys2Proof Sys2Proof.Machine

/-- Settles O10: both ports are functions of `received_in`, which DEC sets to its operand and no other operation changes. -/
theorem flagAndPositionFollowReceivedWord : Obligations.FlagAndPositionFollowReceivedWord := by
  unfold Obligations.FlagAndPositionFollowReceivedWord
  constructor
  · intro s c
    refine ⟨_, exec_dec_port c, ?_, fun h => ?_, fun h => ?_⟩
    · simp [State.errorPosOut_eq]
    · simp [State.errorFlagOut_eq, errorFlag_of_ne_zero h]
    · simp [State.errorFlagOut_eq, errorFlag_of_eq_zero h]
  · intro i s t not_dec h
    have received := exec_receivedIn_of_not_dec not_dec h
    simp [State.errorPosOut_eq, State.errorFlagOut_eq, received]

end

/-! The answer the host holds last, and the ports where no input is illegal (30_encoding.md R51). -/

namespace Sys2Proof.Machine

/-- The answer an operation has just recorded is the last one the host holds. -/
theorem State.lastAnswer_record (s : State) (i : Instr) (o : Output) : LastAnswer (s.record i o) i o := by
  simp [LastAnswer]

end Sys2Proof.Machine

section

open Sys2Proof Sys2Proof.Machine

/-- Settles O24: at the ports each operation records its answer whatever the state; CORRUPT_AT alone asks for a position in 1..7. -/
theorem everyPortInputIsLegal : Obligations.EveryPortInputIsLegal := by
  unfold Obligations.EveryPortInputIsLegal
  intro s
  refine ⟨fun d => ?enc, fun c => ?dec, fun c p hp => ?corruptAt, fun c rng => ?corrupt⟩
  case enc => exact ⟨_, _, exec_enc_port d, State.lastAnswer_record ..⟩
  case dec => exact ⟨_, _, _, _, _, exec_dec_port c, State.lastAnswer_record ..⟩
  case corruptAt => exact ⟨_, _, exec_corruptAt_port c hp, State.lastAnswer_record ..⟩
  case corrupt => exact ⟨_, _, _, exec_corrupt_port c rng, State.lastAnswer_record ..⟩

end

/-! The codeword of ENC: its bits position by position, its number, and a parity bit as a count (40_encoder.md R61 to R64). -/

namespace Sys2Proof.Machine

/-- Positions 1, 2, 4 of a codeword are the parity signals, positions 3, 5, 6, 7 the data bits (40_encoder.md R64). -/
theorem codeBit_encodeWord (d : DataWord) :
    codeBit (encodeWord d) 1 = parityR1 d ∧ codeBit (encodeWord d) 2 = parityR2 d ∧ codeBit (encodeWord d) 3 = dataBit d 1 ∧
    codeBit (encodeWord d) 4 = parityR3 d ∧ codeBit (encodeWord d) 5 = dataBit d 2 ∧ codeBit (encodeWord d) 6 = dataBit d 3 ∧
    codeBit (encodeWord d) 7 = dataBit d 4 :=
  codeBit_pack7 ..

/-- Packing loses nothing: seven bits stay below 2^7 (20_memory.md R32). -/
theorem toNat_pack7 (b1 b2 b3 b4 b5 b6 b7 : Bit) :
    (pack7 b1 b2 b3 b4 b5 b6 b7).toNat =
      64 * b1.toNat + 32 * b2.toNat + 16 * b3.toNat + 8 * b4.toNat + 4 * b5.toNat + 2 * b6.toNat + b7.toNat := by
  have := b1.toNat_le; have := b2.toNat_le; have := b3.toNat_le; have := b4.toNat_le
  have := b5.toNat_le; have := b6.toNat_le; have := b7.toNat_le
  exact Nat.mod_eq_of_lt (by omega)

/-- The exclusive or of three bits is 1 exactly when the number of ones among them is odd (00_scope.md R6). -/
theorem xor3_eq_true_iff_odd (a b c : Bit) : (a ^^ b ^^ c) = true ↔ (a.toNat + b.toNat + c.toNat) % 2 = 1 := by
  revert a b c; decide

end Sys2Proof.Machine

section

open Sys2Proof Sys2Proof.Machine

/-- Settles O1: the word is `encodeWord d`, a function of the DataWord alone, so every state answers the same one. -/
theorem encodeComputesParityAndAssembles : Obligations.EncodeComputesParityAndAssembles := by
  unfold Obligations.EncodeComputesParityAndAssembles
  intro d
  obtain ⟨r1, r2, d1, r3, d2, d3, d4⟩ := codeBit_encodeWord d
  exact ⟨encodeWord d, r1, r2, r3, r1, r2, r3, xor3_eq_true_iff_odd .., d1, d2, d3, d4, toNat_pack7 ..,
    fun s => ⟨exec_enc_port d, rfl⟩⟩

end

/-! The flip of a position as an exclusive or, so that flips cancel and the parity checks follow them (42_channel_env.md R111). -/

namespace Sys2Proof.Machine

/-- A position other than 0 is one of 1..7 (30_encoding.md R44). -/
theorem toNat_position {p : Pos} (hp : p ≠ 0) : 1 ≤ p.toNat ∧ p.toNat ≤ 7 :=
  ⟨Nat.pos_of_ne_zero fun zero => hp (BitVec.eq_of_toNat_eq zero), Nat.le_of_lt_succ p.isLt⟩

/-- The bits of a flip as one expression: the bit of the word, and whether its position is the flipped one. -/
theorem codeBit_flip_eq_xor (c : Word7) (p : Pos) {q : Nat} (lo : 1 ≤ q) (hi : q ≤ 7) :
    codeBit (flip c p) q = (codeBit c q ^^ decide (p.toNat = q)) := by
  rw [codeBit_flip c p q lo hi, flippedBit]
  by_cases h : q = p.toNat
  · simp [h]
  · simp [h, Ne.symm h]

/-- Position 0 is no position of a word: nothing is complemented. -/
theorem flip_zero (c : Word7) : flip c 0 = c := by
  refine word7_ext fun q lo hi => ?_
  have off : (0 : Pos).toNat ≠ q := Nat.ne_of_lt lo
  rw [codeBit_flip_eq_xor c 0 lo hi, decide_eq_false off, Bool.xor_false]

theorem flip_flip (c : Word7) (p : Pos) : flip (flip c p) p = c := by
  refine word7_ext fun q lo hi => ?_
  simp [codeBit_flip_eq_xor _ p lo hi]

theorem codeBit_xor (a b : Word7) (q : Nat) : codeBit (a ^^^ b) q = (codeBit a q ^^ codeBit b q) := BitVec.getLsbD_xor

/-- A word and its flip differ in one position (42_channel_env.md R113). -/
theorem distance_flip (c : Word7) {p : Pos} (hp : p ≠ 0) : distance c (flip c p) = 1 := by
  have difference : ∀ q, 1 ≤ q → q ≤ 7 → codeBit (c ^^^ flip c p) q = decide (p.toNat = q) := by
    intro q lo hi
    simp [codeBit_xor, codeBit_flip_eq_xor c p lo hi]
  rw [distance, weight, difference 1 (by omega) (by omega), difference 2 (by omega) (by omega),
    difference 3 (by omega) (by omega), difference 4 (by omega) (by omega), difference 5 (by omega) (by omega),
    difference 6 (by omega) (by omega), difference 7 (by omega) (by omega)]
  clear difference
  revert p; decide

/-- A parity of four different positions is inverted by the flip of one of them and by no other. -/
theorem parity_flip (c : Word7) (p : Pos) {i j k l : Nat} (range : ∀ q ∈ [i, j, k, l], 1 ≤ q ∧ q ≤ 7)
    (different : [i, j, k, l].Nodup) :
    (codeBit (flip c p) i ^^ codeBit (flip c p) j ^^ codeBit (flip c p) k ^^ codeBit (flip c p) l) =
      ((codeBit c i ^^ codeBit c j ^^ codeBit c k ^^ codeBit c l) ^^ decide (p.toNat ∈ [i, j, k, l])) := by
  have bit : ∀ q ∈ [i, j, k, l], codeBit (flip c p) q = (codeBit c q ^^ decide (p.toNat = q)) :=
    fun q hq => codeBit_flip_eq_xor c p (range q hq).1 (range q hq).2
  rw [bit i (by simp), bit j (by simp), bit k (by simp), bit l (by simp)]
  have one_at_most : decide (p.toNat ∈ [i, j, k, l]) =
      (decide (p.toNat = i) ^^ decide (p.toNat = j) ^^ decide (p.toNat = k) ^^ decide (p.toNat = l)) := by
    grind
  rw [one_at_most]
  simp only [Bool.xor_assoc, Bool.xor_left_comm]

end Sys2Proof.Machine

/-! The syndrome: its value bit by bit, on codewords and after a flip (41_decoder.md R81 to R85). -/

namespace Sys2Proof.Machine

theorem syndromeS1_flip (c : Word7) (p : Pos) : syndromeS1 (flip c p) = (syndromeS1 c ^^ decide (p.toNat ∈ [1, 3, 5, 7])) :=
  parity_flip c p (by decide) (by decide)

theorem syndromeS2_flip (c : Word7) (p : Pos) : syndromeS2 (flip c p) = (syndromeS2 c ^^ decide (p.toNat ∈ [2, 3, 6, 7])) :=
  parity_flip c p (by decide) (by decide)

theorem syndromeS3_flip (c : Word7) (p : Pos) : syndromeS3 (flip c p) = (syndromeS3 c ^^ decide (p.toNat ∈ [4, 5, 6, 7])) :=
  parity_flip c p (by decide) (by decide)

/-- A 3-bit number packed from its bits is read back bit by bit (30_encoding.md R48). -/
theorem getLsbD_weighted (b0 b1 b2 : Bit) :
    (BitVec.ofNat 3 (4 * b2.toNat + 2 * b1.toNat + b0.toNat)).getLsbD 0 = b0 ∧
    (BitVec.ofNat 3 (4 * b2.toNat + 2 * b1.toNat + b0.toNat)).getLsbD 1 = b1 ∧
    (BitVec.ofNat 3 (4 * b2.toNat + 2 * b1.toNat + b0.toNat)).getLsbD 2 = b2 := by
  revert b0 b1 b2; decide

theorem getLsbD_syndromeValue (c : Word7) :
    (syndromeValue c).getLsbD 0 = syndromeS1 c ∧ (syndromeValue c).getLsbD 1 = syndromeS2 c ∧
    (syndromeValue c).getLsbD 2 = syndromeS3 c :=
  getLsbD_weighted ..

/-- Packing the syndrome loses nothing: three bits stay below 8 (41_decoder.md R85). -/
theorem toNat_syndromeValue (c : Word7) :
    (syndromeValue c).toNat = 4 * (syndromeS3 c).toNat + 2 * (syndromeS2 c).toNat + (syndromeS1 c).toNat := by
  have := (syndromeS1 c).toNat_le; have := (syndromeS2 c).toNat_le; have := (syndromeS3 c).toNat_le
  exact Nat.mod_eq_of_lt (by omega)

/-- Two 3-bit numbers with the same bits are the same number. -/
theorem pos_ext {a b : Pos} (h0 : a.getLsbD 0 = b.getLsbD 0) (h1 : a.getLsbD 1 = b.getLsbD 1)
    (h2 : a.getLsbD 2 = b.getLsbD 2) : a = b := by
  refine BitVec.eq_of_getLsbD_eq fun i hi => ?_
  interval_cases i <;> assumption

theorem syndromeValue_eq_zero_iff (c : Word7) :
    syndromeValue c = 0 ↔ syndromeS1 c = false ∧ syndromeS2 c = false ∧ syndromeS3 c = false := by
  obtain ⟨h1, h2, h3⟩ := getLsbD_syndromeValue c
  constructor
  · intro zero
    rw [← h1, ← h2, ← h3, zero]
    decide
  · rintro ⟨s1, s2, s3⟩
    exact pos_ext (h1.trans s1) (h2.trans s2) (h3.trans s3)

/-- Each check reads the positions whose number has its bit set: as one number they read the position (41_decoder.md R84). -/
theorem getLsbD_position (p : Pos) :
    p.getLsbD 0 = decide (p.toNat ∈ [1, 3, 5, 7]) ∧ p.getLsbD 1 = decide (p.toNat ∈ [2, 3, 6, 7]) ∧
    p.getLsbD 2 = decide (p.toNat ∈ [4, 5, 6, 7]) := by
  revert p; decide

/-- A flip moves the syndrome by the number of the flipped position. -/
theorem syndromeValue_flip (c : Word7) (p : Pos) : syndromeValue (flip c p) = syndromeValue c ^^^ p := by
  obtain ⟨f1, f2, f3⟩ := getLsbD_syndromeValue (flip c p)
  obtain ⟨c1, c2, c3⟩ := getLsbD_syndromeValue c
  obtain ⟨p1, p2, p3⟩ := getLsbD_position p
  apply pos_ext
  · rw [f1, syndromeS1_flip, BitVec.getLsbD_xor, c1, p1]
  · rw [f2, syndromeS2_flip, BitVec.getLsbD_xor, c2, p2]
  · rw [f3, syndromeS3_flip, BitVec.getLsbD_xor, c3, p3]

/-- A check is 0 exactly when its parity bit is the parity of the data bits it reads. -/
theorem check_eq_false_iff {r a b c : Bit} : (r ^^ a ^^ b ^^ c) = false ↔ r = (a ^^ b ^^ c) := by
  revert r a b c; decide

/-- The checks of a codeword are 0: each meets its own parity bit and that bit's three data bits (40_encoder.md R71). -/
theorem syndromeValue_encodeWord (d : DataWord) : syndromeValue (encodeWord d) = 0 := by
  obtain ⟨r1, r2, d1, r3, d2, d3, d4⟩ := codeBit_encodeWord d
  refine (syndromeValue_eq_zero_iff _).2 ⟨?s1, ?s2, ?s3⟩
  case s1 => rw [syndromeS1, r1, d1, d2, d4]; exact check_eq_false_iff.2 rfl
  case s2 => rw [syndromeS2, r2, d1, d3, d4]; exact check_eq_false_iff.2 rfl
  case s3 => rw [syndromeS3, r3, d2, d3, d4]; exact check_eq_false_iff.2 rfl

/-- A word whose checks are 0 is the codeword of its own data positions. -/
theorem encodeWord_extractData_of_syndromeValue_eq_zero {c : Word7} (h : syndromeValue c = 0) :
    encodeWord (extractData c) = c := by
  obtain ⟨s1, s2, s3⟩ := (syndromeValue_eq_zero_iff c).1 h
  obtain ⟨d1, d2, d3, d4⟩ := dataBit_extractData c
  obtain ⟨e1, e2, e3, e4, e5, e6, e7⟩ := codeBit_encodeWord (extractData c)
  refine word7_ext (forall_position ?p1 ?p2 (e3.trans d1) ?p4 (e5.trans d2) (e6.trans d3) (e7.trans d4))
  case p1 => rw [e1, parityR1, d1, d2, d4]; exact (check_eq_false_iff.1 s1).symm
  case p2 => rw [e2, parityR2, d1, d3, d4]; exact (check_eq_false_iff.1 s2).symm
  case p4 => rw [e4, parityR3, d2, d3, d4]; exact (check_eq_false_iff.1 s3).symm

theorem syndromeValue_eq_zero_iff_isCodeword (c : Word7) : syndromeValue c = 0 ↔ IsCodeword c :=
  ⟨fun h => ⟨_, encodeWord_extractData_of_syndromeValue_eq_zero h⟩, fun ⟨d, hd⟩ => hd ▸ syndromeValue_encodeWord d⟩

/-- The words of syndrome value v are the codewords with position v flipped (with v = 0, the codewords themselves). -/
theorem syndromeValue_eq_iff (c : Word7) (v : Pos) : syndromeValue c = v ↔ ∃ d, flip (encodeWord d) v = c := by
  constructor
  · intro h
    have zero : syndromeValue (flip c v) = 0 := by rw [syndromeValue_flip, h, BitVec.xor_self]; rfl
    exact ⟨_, by rw [encodeWord_extractData_of_syndromeValue_eq_zero zero, flip_flip]⟩
  · rintro ⟨d, rfl⟩
    rw [syndromeValue_flip, syndromeValue_encodeWord, BitVec.ofNat_eq_ofNat, BitVec.zero_xor]

/-- The sixteen codewords with position v flipped, as numbers. -/
def flippedCodewords (v : Pos) : List Nat := (List.finRange 16).map fun d => (flip (encodeWord (BitVec.ofFin d)) v).toNat

theorem nodup_flippedCodewords (v : Pos) : (flippedCodewords v).Nodup := by
  refine (List.nodup_finRange 16).map fun a b same => ?_
  have word : encodeWord (BitVec.ofFin a) = encodeWord (BitVec.ofFin b) := by
    rw [← flip_flip (encodeWord (BitVec.ofFin a)) v, BitVec.eq_of_toNat_eq same, flip_flip]
  have data : BitVec.ofFin a = BitVec.ofFin b := by
    rw [← extractData_encodeWord (BitVec.ofFin a), word, extractData_encodeWord]
  exact congrArg BitVec.toFin data

theorem mem_flippedCodewords (v : Pos) (n : Nat) :
    n ∈ flippedCodewords v ↔ n < 128 ∧ syndromeValue (BitVec.ofNat 7 n) = v := by
  simp only [flippedCodewords, List.mem_map, List.mem_finRange, true_and, syndromeValue_eq_iff]
  constructor
  · rintro ⟨d, rfl⟩
    exact ⟨BitVec.isLt _, _, by rw [BitVec.ofNat_toNat, BitVec.setWidth_eq]⟩
  · rintro ⟨small, d, hd⟩
    exact ⟨d.toFin, by rw [hd, BitVec.toNat_ofNat, Nat.mod_eq_of_lt small]⟩

/-- Each syndrome value occurs for sixteen received words, one per codeword (41_decoder.md R85). -/
theorem length_filter_syndromeValue_eq (v : Pos) :
    ((List.range 128).filter (fun n => syndromeValue (BitVec.ofNat 7 n) == v)).length = 16 := by
  have same : ((List.range 128).filter (fun n => syndromeValue (BitVec.ofNat 7 n) == v)).Perm (flippedCodewords v) := by
    refine (List.perm_ext_iff_of_nodup (List.nodup_range.filter _) (nodup_flippedCodewords v)).2 fun n => ?_
    simp [mem_flippedCodewords]
  rw [same.length_eq, flippedCodewords, List.length_map, List.length_finRange]

/-- The words that are no codewords are the other 112 (41_decoder.md R89). -/
theorem length_filter_syndromeValue_ne_zero :
    ((List.range 128).filter (fun n => syndromeValue (BitVec.ofNat 7 n) != 0)).length = 112 := by
  have codewords := length_filter_syndromeValue_eq 0
  have both := List.length_eq_length_filter_add (l := List.range 128) fun n => syndromeValue (BitVec.ofNat 7 n) == 0
  rw [List.length_range, codewords] at both
  simp only [bne]
  omega

end Sys2Proof.Machine

/-! The corrected word and the data taken from it (41_decoder.md R88 to R92). -/

namespace Sys2Proof.Machine

variable {s : State}

/-- Both cases of the correction are the flip of the position that the syndrome names, where 0 names none. -/
theorem correctWord_eq_flip (c : Word7) : correctWord c = flip c (syndromeValue c) := by
  unfold correctWord
  split
  next zero => rw [zero, flip_zero]
  next => rfl

theorem correctWord_of_eq_zero {c : Word7} (h : syndromeValue c = 0) : correctWord c = c := if_pos h

theorem codeBit_correctWord (c : Word7) {q : Nat} (lo : 1 ≤ q) (hi : q ≤ 7) :
    codeBit (correctWord c) q = (codeBit c q ^^ decide ((syndromeValue c).toNat = q)) := by
  rw [correctWord_eq_flip, codeBit_flip_eq_xor c _ lo hi]

/-- The corrected bit at a position given as a 3-bit number. -/
theorem codeBit_correctWord_at (c : Word7) {v : Pos} (hv : v ≠ 0) :
    codeBit (correctWord c) v.toNat = (codeBit c v.toNat ^^ decide (syndromeValue c = v)) := by
  obtain ⟨lo, hi⟩ := toNat_position hv
  rw [codeBit_correctWord c lo hi]
  simp only [BitVec.toNat_inj]

/-- Where the syndrome names no data position, the correction leaves the data (41_decoder.md R92). -/
theorem extractData_correctWord_of_not_data {c : Word7} (h : (syndromeValue c).toNat ∉ [3, 5, 6, 7]) :
    extractData (correctWord c) = extractData c := by
  have kept : ∀ q ∈ [3, 5, 6, 7], codeBit (correctWord c) q = codeBit c q := by
    intro q hq
    have range : ∀ q ∈ [3, 5, 6, 7], 1 ≤ q ∧ q ≤ 7 := by decide
    have other : (syndromeValue c).toNat ≠ q := fun same => h (same ▸ hq)
    simp [codeBit_correctWord c (range q hq).1 (range q hq).2, other]
  rw [extractData, kept 3 (by decide), kept 5 (by decide), kept 6 (by decide), kept 7 (by decide), extractData]

/-- DEC on a word without an error (41_decoder.md R88). -/
theorem exec_dec_port_of_eq_zero {c : Word7} (h : syndromeValue c = 0) :
    exec (.dec (.port c)) s =
      .next ((s.driveReceived c).record (.dec (.port c)) (.decoded c 0 0 (extractData c))) := by
  rw [exec_dec_port, correctWord_of_eq_zero h, errorFlag_of_eq_zero h, h]

/-- DEC on a word with an error (41_decoder.md R89). -/
theorem exec_dec_port_of_ne_zero {c : Word7} (h : syndromeValue c ≠ 0) :
    exec (.dec (.port c)) s = .next ((s.driveReceived c).record (.dec (.port c))
      (.decoded (flip c (syndromeValue c)) (syndromeValue c) 1 (extractData (flip c (syndromeValue c))))) := by
  rw [exec_dec_port, correctWord_eq_flip, errorFlag_of_ne_zero h]

end Sys2Proof.Machine

section

open Sys2Proof Sys2Proof.Machine

/-- Settles O8: the position port is the syndrome value, whose bits are the three parities; a flip reaches each parity that reads
its position. -/
theorem decodeComputesSyndrome : Obligations.DecodeComputesSyndrome := by
  unfold Obligations.DecodeComputesSyndrome
  intro s c
  obtain ⟨h1, h2, h3⟩ := getLsbD_syndromeValue c
  refine ⟨_, exec_dec_port c, h1, h2, h3, h1, h2, h3, fun codeword => ?_, fun p _ => ?_⟩
  · exact (syndromeValue_eq_zero_iff c).1 ((syndromeValue_eq_zero_iff_isCodeword c).2 codeword)
  · exact ⟨syndromeS1_flip c p, syndromeS2_flip c p, syndromeS3_flip c p⟩

/-- Settles O9: the words of a value are the codewords with that position flipped; read in the other significance the position of
an error is its number with bits 0 and 2 exchanged. -/
theorem syndromeValueIsWeighted : Obligations.SyndromeValueIsWeighted := by
  unfold Obligations.SyndromeValueIsWeighted
  refine ⟨fun s c => ⟨_, exec_dec_port c, toNat_syndromeValue c⟩, length_filter_syndromeValue_eq, fun w p codeword _ => ?_⟩
  obtain ⟨s1, s2, s3⟩ := (syndromeValue_eq_zero_iff w).1 ((syndromeValue_eq_zero_iff_isCodeword w).2 codeword)
  rw [syndromeS1_flip, syndromeS2_flip, syndromeS3_flip, s1, s2, s3]
  revert p; decide

/-- Settles O11: where no check fails, the correction is the identity, and only codewords fail none. -/
theorem decodeReturnsCodewordUnchanged : Obligations.DecodeReturnsCodewordUnchanged := by
  unfold Obligations.DecodeReturnsCodewordUnchanged
  exact ⟨fun _ _ => exec_dec_port_of_eq_zero, syndromeValue_eq_zero_iff_isCodeword, length_filter_syndromeValue_eq 0⟩

/-- Settles O12: the corrected word is the flip of the position that the syndrome names. -/
theorem decodeFlipsTheNamedPosition : Obligations.DecodeFlipsTheNamedPosition := by
  unfold Obligations.DecodeFlipsTheNamedPosition
  refine ⟨fun s c error => ?_, fun c => not_congr (syndromeValue_eq_zero_iff_isCodeword c), length_filter_syndromeValue_ne_zero⟩
  obtain ⟨lo, hi⟩ := toNat_position error
  refine ⟨_, ?named, fun q qlo qhi other => ?others, rfl, distance_flip c error, exec_dec_port_of_ne_zero error⟩
  case named => simp [codeBit_flip_eq_xor c _ lo hi]
  case others => simp [codeBit_flip_eq_xor c _ qlo qhi, other.symm]

/-- Settles O14: `data_out` reads the corrected word, in which only the position that the syndrome names is complemented. -/
theorem dataOutIsTakenAfterCorrection : Obligations.DataOutIsTakenAfterCorrection := by
  unfold Obligations.DataOutIsTakenAfterCorrection
  intro s c
  obtain ⟨d1, d2, d3, d4⟩ := dataBit_extractData (correctWord c)
  refine ⟨_, exec_dec_port c, d1, d2, d3, d4, d1.trans (codeBit_correctWord_at c (v := 3) (by decide)),
    d2.trans (codeBit_correctWord_at c (v := 5) (by decide)), d3.trans (codeBit_correctWord_at c (v := 6) (by decide)),
    d4.trans (codeBit_correctWord_at c (v := 7) (by decide)), fun none_or_parity => ?_⟩
  refine extractData_correctWord_of_not_data (c := c) ?_
  obtain h | h | h | h := none_or_parity <;> rw [h] <;> decide

/-- Settles O16: the four outputs are functions of the received word. -/
theorem decodeIsAFunctionOfTheReceivedWord : Obligations.DecodeIsAFunctionOfTheReceivedWord := by
  unfold Obligations.DecodeIsAFunctionOfTheReceivedWord
  exact fun c => ⟨_, _, _, _, fun _ => exec_dec_port c⟩

end

/-! The channel: the flip as a packed exclusive or, two flips in either order, and the answer of CORRUPT (42_channel_env.md R110 to
R113). -/

namespace Sys2Proof.Machine

variable {s t : State}

/-- Packed, position p is bit 7 - p of the word (20_memory.md R32). -/
theorem flip_eq_xor_twoPow (c : Word7) {p : Pos} (hp : p ≠ 0) : flip c p = c ^^^ BitVec.twoPow 7 (7 - p.toNat) := by
  obtain ⟨plo, phi⟩ := toNat_position hp
  refine word7_ext fun q lo hi => ?_
  have named : codeBit (BitVec.twoPow 7 (7 - p.toNat)) q = decide (p.toNat = q) := by
    rw [codeBit, BitVec.getLsbD_twoPow, decide_eq_true (by omega : 7 - p.toNat < 7), Bool.true_and]
    exact decide_eq_decide.2 (by omega)
  rw [codeBit_flip_eq_xor c p lo hi, codeBit_xor, named]

theorem toNat_flip (c : Word7) {p : Pos} (hp : p ≠ 0) : (flip c p).toNat = c.toNat ^^^ 2 ^ (7 - p.toNat) := by
  have small : 2 ^ (7 - p.toNat) < 2 ^ 7 := by
    obtain ⟨lo, -⟩ := toNat_position hp
    exact Nat.pow_lt_pow_right (by decide) (by omega)
  rw [flip_eq_xor_twoPow c hp, BitVec.toNat_xor, BitVec.toNat_twoPow, Nat.mod_eq_of_lt small]

theorem flip_comm (c : Word7) (p q : Pos) : flip (flip c p) q = flip (flip c q) p := by
  refine word7_ext fun i lo hi => ?_
  simp only [codeBit_flip_eq_xor _ _ lo hi, Bool.xor_assoc, Bool.xor_comm (decide (p.toNat = i))]

/-- The flipped word tells its position: the syndrome moves by the position's number (41_decoder.md R84). -/
theorem flip_injective (c : Word7) : Function.Injective (flip c) := by
  intro p q same
  have moved := congrArg syndromeValue same
  rwa [syndromeValue_flip, syndromeValue_flip, BitVec.xor_right_inj] at moved

/-- The last answer after a record is the recorded one and no other. -/
theorem State.lastAnswer_record_iff {i : Instr} {o o' : Output} : LastAnswer (s.record i o) i o' ↔ o = o' := by
  simp [LastAnswer]

/-- Everything CORRUPT can answer on a word, for one source. -/
theorem exec_corrupt_port_next {c : Word7} {rng : RandomSource} (h : exec (.corrupt ⟨.port c, rng⟩) s = .next t) :
    t = s.record (.corrupt ⟨.port c, rng⟩) (.wordAt (flip c (drawPosition rng)) (drawPosition rng)) := by
  rw [exec_corrupt_port] at h
  exact (Host.Outcome.next.inj h).symm

end Sys2Proof.Machine

section

open Sys2Proof Sys2Proof.Machine

/-- Settles O21: each source flips the position it draws, and every position is the draw of some source. -/
theorem corruptHasSevenOutcomes : Obligations.CorruptHasSevenOutcomes := by
  unfold Obligations.CorruptHasSevenOutcomes
  refine ⟨fun s c rng => ?completes, fun s c w p => ⟨?only, ?every⟩, fun c p q _ _ different => ?distinct⟩
  case completes => exact ⟨_, _, differExactlyAt_flip c (drawPosition_ne_zero rng), exec_corrupt_port c rng⟩
  case only =>
    rintro ⟨rng, t, run, last⟩
    rw [exec_corrupt_port_next run, State.lastAnswer_record_iff] at last
    obtain ⟨rfl, rfl⟩ := Output.wordAt.inj last
    exact ⟨drawPosition_ne_zero rng, rfl⟩
  case every =>
    rintro ⟨hp, rfl⟩
    obtain ⟨rng, rfl⟩ := drawPosition_surjective hp
    exact ⟨rng, _, exec_corrupt_port c rng, State.lastAnswer_record ..⟩
  case distinct => exact (flip_injective c).ne different

/-- Settles O22: the answer is the flip of the drawn position, recorded beside the operation and so beside its input. -/
theorem corruptReportsTheOneDifference : Obligations.CorruptReportsTheOneDifference := by
  unfold Obligations.CorruptReportsTheOneDifference
  intro s t c rng run
  have drawn := drawPosition_ne_zero rng
  obtain ⟨lo, hi⟩ := toNat_position drawn
  obtain ⟨-, exactly⟩ := differExactlyAt_flip c drawn
  refine ⟨flip c (drawPosition rng), drawPosition rng, ?held, drawn, distance_flip c drawn, ?named, fun q qlo qhi other => ?others⟩
  case held => rw [exec_corrupt_port_next run, State.record_results]
  case named => exact (exactly _ lo hi).2 rfl
  case others => exact not_not.1 fun differ => other ((exactly q qlo qhi).1 differ)

/-- Settles O19: the word is the flip of the given position; flips cancel and commute. -/
theorem corruptAtFlipsTheGivenPosition : Obligations.CorruptAtFlipsTheGivenPosition := by
  unfold Obligations.CorruptAtFlipsTheGivenPosition
  intro s c p hp
  refine ⟨flip c p, codeBit_flip c p, toNat_flip c hp, exec_corruptAt_port c hp, ⟨_, exec_corruptAt_port _ hp, ?twice⟩,
    fun q hq => ⟨flip c q, _, _, _, flip (flip c p) q, exec_corruptAt_port c hq, State.lastAnswer_record ..,
      exec_corruptAt_port _ hq, State.lastAnswer_record .., exec_corruptAt_port _ hp, ?order⟩⟩
  case twice => exact State.lastAnswer_record_iff.2 (congrArg Output.word (flip_flip c p))
  case order => exact State.lastAnswer_record_iff.2 (congrArg Output.word (flip_comm c q p))

end

/-! A codeword with one position flipped, at the decoder: the syndrome names the flipped position and the correction flips it back
(41_decoder.md R94, 43_properties.md R125). -/

namespace Sys2Proof.Machine

variable {s : State} {p : Pos}

theorem syndromeValue_flip_encodeWord (d : DataWord) (p : Pos) : syndromeValue (flip (encodeWord d) p) = p :=
  (syndromeValue_eq_iff _ p).2 ⟨d, rfl⟩

theorem correctWord_flip_encodeWord (d : DataWord) (p : Pos) : correctWord (flip (encodeWord d) p) = encodeWord d := by
  rw [correctWord_eq_flip, syndromeValue_flip_encodeWord, flip_flip]

/-- The corrected-word port in terms of the received word (10_state.md R12). -/
theorem State.correctedOut_eq (s : State) : s.correctedOut = correctWord s.receivedIn := rfl

/-- The data port in terms of the received word (41_decoder.md R92). -/
theorem State.dataOut_eq (s : State) : s.dataOut = extractData (correctWord s.receivedIn) := rfl

/-- The guarantee for a single error, read on the four output ports (41_decoder.md R94). -/
theorem State.decoderPorts_of_flipped_codeword (d : DataWord) (hp : p ≠ 0) (received : s.receivedIn = flip (encodeWord d) p) :
    s.correctedOut = encodeWord d ∧ s.errorPosOut = p ∧ s.errorFlagOut = 1 ∧ s.dataOut = d := by
  rw [State.correctedOut_eq, State.errorPosOut_eq, State.errorFlagOut_eq, State.dataOut_eq, received,
    correctWord_flip_encodeWord, syndromeValue_flip_encodeWord]
  exact ⟨rfl, rfl, errorFlag_of_ne_zero hp, extractData_encodeWord d⟩

/-- DEC on a flipped codeword completes, and the ports show the codeword, the position, the flag and the data. -/
theorem exec_dec_port_flipped_codeword (s : State) (d : DataWord) (hp : p ≠ 0) :
    ∃ t, exec (.dec (.port (flip (encodeWord d) p))) s = .next t ∧
      t.correctedOut = encodeWord d ∧ t.errorPosOut = p ∧ t.errorFlagOut = 1 ∧ t.dataOut = d :=
  ⟨_, exec_dec_port _, State.decoderPorts_of_flipped_codeword d hp rfl⟩

/-- No data bit is set, so no parity bit is (43_properties.md R130). -/
theorem encodeWord_zero : encodeWord 0 = 0 := by decide

end Sys2Proof.Machine

section

open Sys2Proof Sys2Proof.Machine

/-- Settles O34: the channel answers the codeword with one position flipped, given or drawn, and the decoder flips it back. -/
theorem everySingleErrorIsCorrected : Obligations.EverySingleErrorIsCorrected := by
  unfold Obligations.EverySingleErrorIsCorrected
  refine ⟨fun s d p hp => ?given, fun s d rng => ?drawn⟩
  case given =>
    obtain ⟨v, decoded, ports⟩ := exec_dec_port_flipped_codeword _ d hp
    exact ⟨_, _, v, _, exec_enc_port d, exec_corruptAt_port _ hp, State.lastAnswer_record .., decoded, ports⟩
  case drawn =>
    have hp := drawPosition_ne_zero rng
    obtain ⟨v, decoded, ports⟩ := exec_dec_port_flipped_codeword _ d hp
    exact ⟨_, _, v, _, _, exec_enc_port d, exec_corrupt_port _ rng, State.lastAnswer_record .., hp, decoded, ports⟩

/-- Settles O35: the word with a single 1 is the codeword 0 with that position flipped. -/
theorem allZeroBoundary : Obligations.AllZeroBoundary := by
  unfold Obligations.AllZeroBoundary
  intro s
  refine ⟨?encode, fun p hp => ?flipped⟩
  case encode => rw [exec_enc_port, encodeWord_zero]; rfl
  case flipped =>
    obtain ⟨t, decoded, corrected, position, -, data⟩ := exec_dec_port_flipped_codeword s 0 hp
    refine ⟨flip (encodeWord 0) p, t, ?one, decoded, corrected.trans encodeWord_zero, position, data⟩
    rw [toNat_flip _ hp, encodeWord_zero]
    exact Nat.zero_xor _

end

/-! Requests: the four rows with their own second operand, and decoding against encoding (30_encoding.md R50). -/

namespace Sys2Proof

open Sys2Proof.Machine

theorem decode_enc (x : RawOperand) : decode ⟨.enc, x, .absent⟩ = (decodeOperand 4 x).map .enc := rfl

theorem decode_dec (x : RawOperand) : decode ⟨.dec, x, .absent⟩ = (decodeOperand 7 x).map .dec := rfl

theorem decode_corruptAt (x : RawOperand) (p : Nat) : decode ⟨.corruptAt, x, .position p⟩ = decodeCorruptAt x p := rfl

theorem decode_corrupt (x : RawOperand) (rng : RandomSource) :
    decode ⟨.corrupt, x, .random rng⟩ = (decodeOperand 7 x).map (fun y => .corrupt ⟨y, rng⟩) := rfl

/-- A position in 1..7 is read as itself; the rest is reading the word. -/
theorem decodeCorruptAt_of_range (x : RawOperand) {p : Nat} (lo : 1 ≤ p) (hi : p ≤ 7) :
    decodeCorruptAt x p = (decodeOperand 7 x).map (fun y => .corruptAt y (BitVec.ofNat 3 p)) :=
  if_pos ⟨lo, hi⟩

/-- Another position is rejected by name, whatever the word (42_channel_env.md R111). -/
theorem decodeCorruptAt_outOfRange (x : RawOperand) {p : Nat} (h : p = 0 ∨ 7 < p) :
    decodeCorruptAt x p = .bad .positionOutOfRange :=
  if_neg (by omega)

theorem Instr.wf_corruptAt_iff {x : Operand 7} {p : Pos} : (Instr.corruptAt x p).wf = true ↔ p ≠ 0 := bne_iff_ne

/-- Nothing of a well-formed operation is lost in its request. -/
theorem decode_encode {i : Instr} (wf : i.wf = true) : decode (encode i) = .ok i := by
  cases i with
  | enc x => rw [encode, decode_enc, decodeOperand_encodeOperand]; rfl
  | dec x => rw [encode, decode_dec, decodeOperand_encodeOperand]; rfl
  | corruptAt x p =>
    obtain ⟨lo, hi⟩ := toNat_position (Instr.wf_corruptAt_iff.1 wf)
    rw [encode, decode_corruptAt, decodeCorruptAt_of_range _ lo hi, decodeOperand_encodeOperand, BitVec.ofNat_toNat,
      BitVec.setWidth_eq]
    rfl
  | corrupt x => rw [encode, decode_corrupt, decodeOperand_encodeOperand]; rfl

/-- A request that decodes has its row's own second operand, and is what presents the operation that was read. -/
theorem wf_and_encode_of_decode {r : Request} {i : Instr} (read : decode r = .ok i) : i.wf = true ∧ encode i = r := by
  obtain ⟨row, operand, second⟩ := r
  match row, second with
  | .enc, .absent =>
    obtain ⟨x, hx, rfl⟩ := Decoded.map_eq_ok read
    exact ⟨rfl, by rw [encode, encodeOperand_of_decodeOperand hx]⟩
  | .dec, .absent =>
    obtain ⟨x, hx, rfl⟩ := Decoded.map_eq_ok read
    exact ⟨rfl, by rw [encode, encodeOperand_of_decodeOperand hx]⟩
  | .corruptAt, .position p =>
    obtain ⟨lo, hi, x, hx, rfl⟩ := decodeCorruptAt_eq_ok read
    have number : (BitVec.ofNat 3 p).toNat = p := Nat.mod_eq_of_lt (by omega)
    refine ⟨Instr.wf_corruptAt_iff.2 fun zero => ?_, by rw [encode, encodeOperand_of_decodeOperand hx, number]⟩
    rw [zero] at number
    exact absurd number (Nat.ne_of_lt lo)
  | .corrupt, .random rng =>
    obtain ⟨x, hx, rfl⟩ := Decoded.map_eq_ok read
    exact ⟨rfl, by rw [encode, encodeOperand_of_decodeOperand hx]⟩
  | .enc, .position _ | .enc, .random _ | .dec, .position _ | .dec, .random _ | .corruptAt, .absent
  | .corruptAt, .random _ | .corrupt, .absent | .corrupt, .position _ => cases read

end Sys2Proof

section

open Sys2Proof Sys2Proof.Machine

/-- Settles O50, by the four constructors: each operand is read back by `decodeOperand_encodeOperand`, a position because it is
in 1..7. -/
theorem decodeOfEncodeIsTheOperation : Obligations.DecodeOfEncodeIsTheOperation := by
  unfold Obligations.DecodeOfEncodeIsTheOperation
  exact fun _ => decode_encode

/-- Settles O51, by the rows and second operands: only the four pairs that belong together decode. -/
theorem encodeOfDecodeIsTheRequest : Obligations.EncodeOfDecodeIsTheRequest := by
  unfold Obligations.EncodeOfDecodeIsTheRequest
  exact fun _ _ => wf_and_encode_of_decode

end


/-! Every operation as one equation: it runs or not by its own form and the front end's presence alone, and where it runs, what it
drives and what it answers are functions of its operands (20_memory.md R36, 10_state.md R10, R19). -/

namespace Sys2Proof.Machine

variable {n : Nat} {s t : State} {i : Instr}

/-- The value an operand stands for: the one on the port, or the packed value of a valid list. -/
def operandValue : Operand n → Option (BitVec n)
  | .port v => some v
  | .symbols xs => readSymbols n xs

/-- Whether a call with this operand exists: a list asks for the front end (60_exceptions.md R143). -/
def callable (front : Bool) : Operand n → Bool
  | .port _ => true
  | .symbols _ => front

/-- Reading an operand completes exactly where the call exists, with InvalidInput where it has no value. -/
theorem withOperand_eq_next_iff {x : Operand n} {k : BitVec n → State} :
    withOperand s i x k = .next t ↔
      callable s.apiFrontEnd x = true ∧ t = (operandValue x).elim (s.raiseInvalidInput i) k := by
  cases x with
  | port v => simp [withOperand_port, callable, operandValue, eq_comm]
  | symbols xs =>
    cases front : s.apiFrontEnd with
    | false => simp [withOperand_absent front, callable]
    | true =>
      cases read : readSymbols n xs with
      | none => simp [withOperand_invalid front read, callable, operandValue, read, eq_comm]
      | some v => simp [withOperand_list front read, callable, operandValue, read, eq_comm]

theorem withOperand_ne_fault (x : Operand n) (k : BitVec n → State) (f : Fault) : withOperand s i x k ≠ .fault f := by
  cases x with
  | port v => nofun
  | symbols xs =>
    cases front : s.apiFrontEnd with
    | false => simp [withOperand_absent front]
    | true => cases read : readSymbols n xs <;> simp [withOperand, front, read]

theorem operandValue_eq_none_iff {x : Operand n} : operandValue x = none ↔ ∃ xs, x = .symbols xs ∧ BadInput n xs := by
  cases x <;> simp [operandValue, readSymbols_none_iff_bad]

/-- Whether an operation completes: it is well-formed and its call exists. -/
def runs (front : Bool) : Instr → Bool
  | .enc x => callable front x
  | .dec x => callable front x
  | .corruptAt x p => p != 0 && callable front x
  | .corrupt x => callable front x.word

/-- The answer of ENC to a DataWord, in the form of the call. -/
def encAnswer (x : Operand 4) (d : DataWord) : Output :=
  match x with
  | .port _ => .codeword (encodeWord d)
  | .symbols _ => .list (unpack7 (encodeWord d))

/-- The answer of DEC to a received word, in the form of the call. -/
def decAnswer (x : Operand 7) (c : Word7) : Output :=
  match x with
  | .port _ => .decoded (correctWord c) (syndromeValue c) (errorFlag (syndromeValue c)) (extractData (correctWord c))
  | .symbols _ => .listAt (unpack7 (correctWord c)) (errorPosition (syndromeValue c))

/-- The answer of an operation that completes: InvalidInput where its operand has no value. -/
def answer : Instr → Output
  | .enc x => (operandValue x).elim .invalidInput (encAnswer x)
  | .dec x => (operandValue x).elim .invalidInput (decAnswer x)
  | .corruptAt x p => (operandValue x).elim .invalidInput (fun c => corruptAtOutput x c p)
  | .corrupt x => (operandValue x.word).elim .invalidInput (fun c => corruptOutput x.word c (drawPosition x.rng))

/-- What an operation drives on `data_in`: ENC its value, if there is one. -/
def drivenData : Instr → Option DataWord
  | .enc x => operandValue x
  | .dec _ => none
  | .corruptAt _ _ => none
  | .corrupt _ => none

/-- What an operation drives on `received_in`: DEC its value, if there is one. -/
def drivenWord : Instr → Option Word7
  | .enc _ => none
  | .dec x => operandValue x
  | .corruptAt _ _ => none
  | .corrupt _ => none

/-- The state with the input ports as an operation leaves them. -/
def drive (i : Instr) (s : State) : State :=
  { s with
    dataIn := (drivenData i).getD s.dataIn
    receivedIn := (drivenWord i).getD s.receivedIn }

theorem encOutput_driveData (x : Operand 4) (s : State) (d : DataWord) : encOutput x (s.driveData d) = encAnswer x d := by
  cases x <;> rfl

theorem decOutput_driveReceived (x : Operand 7) (s : State) (c : Word7) :
    decOutput x (s.driveReceived c) = decAnswer x c := by
  cases x <;> rfl

/-- Everything an operation can do, and when: the one equation from which frames, order and noninterference follow. -/
theorem exec_eq_next_iff : exec i s = .next t ↔ runs s.apiFrontEnd i = true ∧ t = (drive i s).record i (answer i) := by
  cases i with
  | enc x =>
    refine withOperand_eq_next_iff.trans (and_congr_right fun _ => ?_)
    simp only [encOutput_driveData, drive, drivenData, answer]
    cases operandValue x <;> rfl
  | dec x =>
    refine withOperand_eq_next_iff.trans (and_congr_right fun _ => ?_)
    simp only [decOutput_driveReceived, drive, drivenWord, answer]
    cases operandValue x <;> rfl
  | corruptAt x p =>
    by_cases hp : p = 0
    · simp [exec, execCorruptAt, runs, hp]
    · rw [exec, execCorruptAt, if_neg hp, withOperand_eq_next_iff, runs, bne_iff_ne.2 hp, Bool.true_and, answer]
      cases operandValue x <;> rfl
  | corrupt x =>
    refine withOperand_eq_next_iff.trans (and_congr_right fun _ => ?_)
    rw [answer]
    cases operandValue x.word <;> rfl

theorem exec_ne_fault (i : Instr) (s : State) (f : Fault) : exec i s ≠ .fault f := by
  cases i with
  | enc x => exact withOperand_ne_fault _ _ f
  | dec x => exact withOperand_ne_fault _ _ f
  | corruptAt x p =>
    rw [exec, execCorruptAt]
    split
    · nofun
    · exact withOperand_ne_fault _ _ f
  | corrupt x => exact withOperand_ne_fault _ _ f

end Sys2Proof.Machine

/-! What agrees with the spec: each answer and its operand (40_encoder.md R71, 41_decoder.md R88, R89, R95, 42_channel_env.md R113). -/

namespace Sys2Proof.Machine

variable {s t : State} {i : Instr}

/-- A codeword carries the data of its own data positions. -/
theorem carriesData_extractData {w : Word7} (codeword : syndromeValue w = 0) : CarriesData w (extractData w) := by
  obtain ⟨d1, d2, d3, d4⟩ := dataBit_extractData w
  exact ⟨d1.symm, d2.symm, d3.symm, d4.symm, (syndromeValue_eq_zero_iff w).1 codeword⟩

theorem carriesData_encodeWord (d : DataWord) : CarriesData (encodeWord d) d := by
  have carried := carriesData_extractData (syndromeValue_encodeWord d)
  rwa [extractData_encodeWord] at carried

/-- Flipping the position that the syndrome names leaves no check failing (41_decoder.md R95). -/
theorem syndromeValue_correctWord (c : Word7) : syndromeValue (correctWord c) = 0 := by
  rw [correctWord_eq_flip, syndromeValue_flip, BitVec.xor_self]
  rfl

theorem decodedFrom_correctWord (c : Word7) :
    DecodedFrom c (correctWord c) (syndromeValue c) (errorFlag (syndromeValue c)) (extractData (correctWord c)) := by
  refine ⟨carriesData_extractData (syndromeValue_correctWord c), ?_⟩
  by_cases h : syndromeValue c = 0
  · exact .inl ⟨h, correctWord_of_eq_zero h, errorFlag_of_eq_zero h⟩
  · rw [correctWord_eq_flip]
    exact .inr ⟨differExactlyAt_flip c h, errorFlag_of_ne_zero h⟩

theorem encAgrees_answer (x : Operand 4) : EncAgrees x (answer (.enc x)) := by
  cases x with
  | port d => exact carriesData_encodeWord d
  | symbols xs =>
    simp only [answer, operandValue]
    cases read : readSymbols 4 xs with
    | none => exact readSymbols_none_iff_bad.1 read
    | some d => exact ⟨d, _, read, rfl, carriesData_encodeWord d⟩

theorem decAgrees_answer (x : Operand 7) : DecAgrees x (answer (.dec x)) := by
  cases x with
  | port c => exact decodedFrom_correctWord c
  | symbols xs =>
    simp only [answer, operandValue]
    cases read : readSymbols 7 xs with
    | none => exact readSymbols_none_iff_bad.1 read
    | some c => exact ⟨c, _, _, _, _, read, rfl, rfl, decodedFrom_correctWord c⟩

theorem corruptAtAgrees_answer (x : Operand 7) {p : Pos} (hp : p ≠ 0) : CorruptAtAgrees p x (answer (.corruptAt x p)) := by
  cases x with
  | port c => exact differExactlyAt_flip c hp
  | symbols xs =>
    simp only [answer, operandValue]
    cases read : readSymbols 7 xs with
    | none => exact ⟨hp, readSymbols_none_iff_bad.1 read⟩
    | some c => exact ⟨c, _, read, rfl, rfl, differExactlyAt_flip c hp⟩

theorem corruptAgrees_answer (x : Operand 7) (rng : RandomSource) : CorruptAgrees x (answer (.corrupt ⟨x, rng⟩)) := by
  have hp := drawPosition_ne_zero rng
  cases x with
  | port c => exact differExactlyAt_flip c hp
  | symbols xs =>
    simp only [answer, operandValue]
    cases read : readSymbols 7 xs with
    | none => exact readSymbols_none_iff_bad.1 read
    | some c => exact ⟨c, _, _, read, rfl, rfl, differExactlyAt_flip c hp⟩

/-- The answer of an operation that runs agrees with its operands, at the port, on a valid list and on a bad one. -/
theorem recordAgrees_answer {front : Bool} (run : runs front i = true) : RecordAgrees ⟨i, answer i⟩ := by
  cases i with
  | enc x => exact encAgrees_answer x
  | dec x => exact decAgrees_answer x
  | corruptAt x p => exact corruptAtAgrees_answer x (bne_iff_ne.1 (Bool.and_eq_true_iff.1 run).1)
  | corrupt x => exact corruptAgrees_answer x.word x.rng

theorem allAgree_reset : AllAgree State.reset := fun _ held => absurd held List.not_mem_nil

/-- An operation keeps what the host holds and adds an answer that agrees. -/
theorem allAgree_of_exec (agree : AllAgree s) (run : exec i s = .next t) : AllAgree t := by
  obtain ⟨completes, rfl⟩ := exec_eq_next_iff.1 run
  intro r held
  obtain old | new := List.mem_append.1 held
  · exact agree r old
  · rw [List.mem_singleton.1 new]
    exact recordAgrees_answer completes

end Sys2Proof.Machine

section

open Sys2Proof Sys2Proof.Machine

/-- Settles O53: a step is the end of the run or one operation, whose answer agrees with its operands. -/
theorem stepKeepsEveryHeldValueInAgreement : Obligations.StepKeepsEveryHeldValueInAgreement := by
  unfold Obligations.StepKeepsEveryHeldValueInAgreement
  intro s t agree moved
  obtain ⟨-, rfl⟩ | ⟨l, ls, i, -, -, run⟩ := step_next moved
  · exact agree
  · exact allAgree_of_exec (s := s.advance) agree run

/-- Settles O52: nothing is held at reset. -/
theorem everyHeldValueAgreesAtReset : Obligations.EveryHeldValueAgreesAtReset := allAgree_reset

end

/-! Bad calls: the operations that answer InvalidInput, and what one leaves behind (60_exceptions.md R140, R147, R148). -/

namespace Sys2Proof.Machine

variable {s t : State} {i : Instr}

/-- A list-level call whose list is a bad input (60_exceptions.md R140). -/
def BadCall : Instr → Prop
  | .enc x => ∃ xs, x = .symbols xs ∧ BadInput 4 xs
  | .dec x => ∃ xs, x = .symbols xs ∧ BadInput 7 xs
  | .corruptAt x _ => ∃ xs, x = .symbols xs ∧ BadInput 7 xs
  | .corrupt x => ∃ xs, x.word = .symbols xs ∧ BadInput 7 xs

/-- InvalidInput stands exactly where there is no value, if it is no answer to a value. -/
theorem elim_invalidInput_iff {n : Nat} {x : Operand n} {f : BitVec n → Output} (value : ∀ v, f v ≠ .invalidInput) :
    (operandValue x).elim .invalidInput f = .invalidInput ↔ ∃ xs, x = .symbols xs ∧ BadInput n xs := by
  rw [← operandValue_eq_none_iff]
  cases operandValue x with
  | none => simp
  | some v => simpa using value v

theorem answer_eq_invalidInput_iff : answer i = .invalidInput ↔ BadCall i := by
  cases i with
  | enc x => exact elim_invalidInput_iff fun d => by cases x <;> nofun
  | dec x => exact elim_invalidInput_iff fun c => by cases x <;> nofun
  | corruptAt x p => exact elim_invalidInput_iff fun c => by cases x <;> nofun
  | corrupt x =>
    obtain ⟨x, rng⟩ := x
    exact elim_invalidInput_iff fun c => by cases x <;> nofun

/-- Where InvalidInput is raised nothing is driven (60_exceptions.md R145). -/
theorem drive_of_badCall (bad : BadCall i) : drive i s = s := by
  cases i with
  | enc x => rw [drive, drivenData, operandValue_eq_none_iff.2 bad]; rfl
  | dec x => rw [drive, drivenWord, operandValue_eq_none_iff.2 bad]; rfl
  | corruptAt x p => rfl
  | corrupt x => rfl

/-- An operation that runs raises InvalidInput, and does nothing else, exactly on a bad call. -/
theorem exec_eq_raiseInvalidInput_iff (run : runs s.apiFrontEnd i = true) :
    exec i s = .next (s.raiseInvalidInput i) ↔ BadCall i := by
  rw [exec_eq_next_iff, ← answer_eq_invalidInput_iff]
  constructor
  · rintro ⟨-, same⟩
    simpa [drive] using (congrArg State.results same).symm
  · intro invalid
    rw [drive_of_badCall (answer_eq_invalidInput_iff.1 invalid), invalid]
    exact ⟨run, rfl⟩

theorem badCall_enc_iff {xs : List Symbol} : BadCall (.enc (.symbols xs)) ↔ BadInput 4 xs := by simp [BadCall]

theorem badCall_dec_iff {xs : List Symbol} : BadCall (.dec (.symbols xs)) ↔ BadInput 7 xs := by simp [BadCall]

theorem badCall_corruptAt_iff {xs : List Symbol} {p : Pos} : BadCall (.corruptAt (.symbols xs) p) ↔ BadInput 7 xs := by
  simp [BadCall]

theorem badCall_corrupt_iff {xs : List Symbol} {rng : RandomSource} :
    BadCall (.corrupt ⟨.symbols xs, rng⟩) ↔ BadInput 7 xs := by
  simp [BadCall]

theorem callable_true {n : Nat} (x : Operand n) : callable true x = true := by
  cases x <;> rfl

/-- With the front end every well-formed operation runs. -/
theorem runs_of_wf (front : s.apiFrontEnd = true) (wf : i.wf = true) : runs s.apiFrontEnd i = true := by
  rw [front]
  cases i with
  | enc x => exact callable_true x
  | dec x => exact callable_true x
  | corruptAt x p => rwa [runs, callable_true, Bool.and_true]
  | corrupt x => exact callable_true x.word

/-- A well-formed operation raises InvalidInput, and does nothing else, exactly on a bad call. -/
theorem badCall_iff_exec (front : s.apiFrontEnd = true) (wf : i.wf = true) :
    BadCall i ↔ exec i s = .next (s.raiseInvalidInput i) :=
  (exec_eq_raiseInvalidInput_iff (runs_of_wf front wf)).symm

end Sys2Proof.Machine

/-! Frame and order: what an operation leaves, and two operations one after the other (10_state.md R10, R13, 20_memory.md R36). -/

namespace Sys2Proof.Machine

variable {s t : State} {i : Instr}

/-- What an operation drives does not depend on what the host holds. -/
theorem drive_record (j : Instr) (o : Output) : drive i (s.record j o) = (drive i s).record j o := rfl

/-- Two operations drive `data_in` in either order with the same result unless both drive it. -/
theorem drive_dataIn_comm {j : Instr} (different : drivenData i = none ∨ drivenData j = none) :
    (drive j (drive i s)).dataIn = (drive i (drive j s)).dataIn := by
  obtain idle | idle := different <;> simp [drive, idle]

theorem drive_receivedIn_comm {j : Instr} (different : drivenWord i = none ∨ drivenWord j = none) :
    (drive j (drive i s)).receivedIn = (drive i (drive j s)).receivedIn := by
  obtain idle | idle := different <;> simp [drive, idle]

theorem drivenData_of_not_enc (not_enc : ∀ x, i ≠ .enc x) : drivenData i = none := by
  cases i with
  | enc x => exact absurd rfl (not_enc x)
  | _ => rfl

theorem drivenWord_of_not_dec (not_dec : ∀ x, i ≠ .dec x) : drivenWord i = none := by
  cases i with
  | dec x => exact absurd rfl (not_dec x)
  | _ => rfl

/-- An operation that answers a next state keeps the front end and the program and adds its one answer. -/
theorem exec_frame (run : exec i s = .next t) :
    t.apiFrontEnd = s.apiFrontEnd ∧ t.program = s.program ∧ t.results = s.results ++ [⟨i, answer i⟩] := by
  obtain ⟨-, rfl⟩ := exec_eq_next_iff.1 run
  exact ⟨rfl, rfl, rfl⟩

/-- The last answer of an operation that has just completed. -/
theorem answer_of_lastAnswer {o : Output} (run : exec i s = .next t) (last : LastAnswer t i o) : answer i = o := by
  obtain ⟨-, rfl⟩ := exec_eq_next_iff.1 run
  exact State.lastAnswer_record_iff.1 last

end Sys2Proof.Machine

section

open Sys2Proof Sys2Proof.Machine

/-- Settles O25: a well-formed list-level call answers InvalidInput exactly where its list has no value. -/
theorem invalidInputIsRaisedExactlyOnBadInput : Obligations.InvalidInputIsRaisedExactlyOnBadInput := by
  unfold Obligations.InvalidInputIsRaisedExactlyOnBadInput
  intro s xs front
  exact ⟨badCall_enc_iff.symm.trans (badCall_iff_exec front rfl), badCall_dec_iff.symm.trans (badCall_iff_exec front rfl),
    fun _ => badCall_corrupt_iff.symm.trans (badCall_iff_exec front rfl),
    fun _ hp => badCall_corruptAt_iff.symm.trans (badCall_iff_exec front (Instr.wf_corruptAt_iff.2 hp))⟩

/-- Settles O28: the call is bad whatever the random source. -/
theorem corruptRejectsABadListBeforeDrawing : Obligations.CorruptRejectsABadListBeforeDrawing := by
  unfold Obligations.CorruptRejectsABadListBeforeDrawing
  exact fun _ _ _ front bad => (badCall_iff_exec front rfl).1 (badCall_corrupt_iff.2 bad)

/-- Settles O31: the failed call adds its error and drives nothing, and j's drive and answer do not depend on what is held. -/
theorem aFailedCallLeavesNothingBehind : Obligations.AFailedCallLeavesNothingBehind := by
  unfold Obligations.AFailedCallLeavesNothingBehind
  intro i j s t u o failed error next last
  have invalid := answer_of_lastAnswer failed error
  have answered := answer_of_lastAnswer next last
  obtain ⟨-, rfl⟩ := exec_eq_next_iff.1 failed
  obtain ⟨run, rfl⟩ := exec_eq_next_iff.1 next
  refine exec_eq_next_iff.2 ⟨run, ?_⟩
  rw [drive_of_badCall (answer_eq_invalidInput_iff.1 invalid), invalid, answered, drive_record]
  rfl

/-- Settles O32: with the front end every well-formed operation runs; reading an operand has no fault. -/
theorem wellFormedOperationsAreTotal : Obligations.WellFormedOperationsAreTotal := by
  unfold Obligations.WellFormedOperationsAreTotal
  exact ⟨fun i s wf front => ⟨_, exec_eq_next_iff.2 ⟨runs_of_wf front wf, rfl⟩⟩, exec_ne_fault⟩

/-- Settles O39: the outputs are functions of the input ports, and each port is driven by its own operation alone, and not where
InvalidInput is raised. -/
theorem frameOfEveryOperation : Obligations.FrameOfEveryOperation := by
  unfold Obligations.FrameOfEveryOperation
  intro i s t run
  obtain ⟨front, program, results⟩ := exec_frame run
  refine ⟨front, program, ⟨_, results⟩, fun not_enc => ?data, fun not_dec => ?received, fun error => ?invalid⟩
  case data =>
    obtain ⟨-, rfl⟩ := exec_eq_next_iff.1 run
    have kept : (drive i s).dataIn = s.dataIn := by simp [drive, drivenData_of_not_enc not_enc]
    simp [State.codewordOut, kept]
  case received =>
    have kept := exec_receivedIn_of_not_dec not_dec run
    simp [State.correctedOut_eq, State.errorPosOut_eq, State.errorFlagOut_eq, State.dataOut_eq, kept]
  case invalid =>
    have bad := answer_eq_invalidInput_iff.1 (answer_of_lastAnswer run error)
    obtain ⟨-, rfl⟩ := exec_eq_next_iff.1 run
    rw [drive_of_badCall bad]
    exact ⟨rfl, rfl⟩

/-- Settles O40: the answer is a function of the operation with its operands. -/
theorem answersDependOnlyOnTheInput : Obligations.AnswersDependOnlyOnTheInput := by
  unfold Obligations.AnswersDependOnlyOnTheInput
  intro i s s' t t' run run'
  exact ⟨answer i, (exec_frame run).2.2, (exec_frame run').2.2⟩

/-- Settles O41: each answer is a function of its operation, and a port that only one of the two drives ends as that one
drives it. -/
theorem independentOperationsCommute : Obligations.IndependentOperationsCommute := by
  unfold Obligations.IndependentOperationsCommute
  intro i j s t u t' u' first second first' second'
  obtain ⟨-, rfl⟩ := exec_eq_next_iff.1 first
  obtain ⟨-, rfl⟩ := exec_eq_next_iff.1 second
  obtain ⟨-, rfl⟩ := exec_eq_next_iff.1 first'
  obtain ⟨-, rfl⟩ := exec_eq_next_iff.1 second'
  refine ⟨⟨answer i, answer j, ?order, ?swapped⟩, fun different => drive_dataIn_comm ?data,
    fun different => drive_receivedIn_comm ?received⟩
  case order => exact List.append_assoc ..
  case swapped => exact List.append_assoc ..
  case data =>
    by_cases enc : ∃ x, i = .enc x
    · obtain ⟨x, rfl⟩ := enc
      exact .inr (drivenData_of_not_enc fun y same => different x y ⟨rfl, same⟩)
    · exact .inl (drivenData_of_not_enc fun x same => enc ⟨x, same⟩)
  case received =>
    by_cases dec : ∃ x, i = .dec x
    · obtain ⟨x, rfl⟩ := dec
      exact .inr (drivenWord_of_not_dec fun y same => different x y ⟨rfl, same⟩)
    · exact .inl (drivenWord_of_not_dec fun x same => dec ⟨x, same⟩)

/-- Settles O48: a step is the end of the run, or an operation in the state past its line. -/
theorem stepsOnlyAddToWhatIsHeld : Obligations.StepsOnlyAddToWhatIsHeld := by
  unfold Obligations.StepsOnlyAddToWhatIsHeld
  intro s t moved
  obtain ⟨ended, rfl⟩ | ⟨l, ls, i, -, -, run⟩ := step_next moved
  · exact ⟨⟨[], by simp⟩, rfl, by simp [ended]⟩
  · obtain ⟨front, program, results⟩ := exec_frame run
    exact ⟨⟨[⟨i, answer i⟩], results, le_rfl⟩, front, program⟩

/-- Settles O20: position 0 is asked for before the operand is read. -/
theorem corruptAtStopsOnPositionZero : Obligations.CorruptAtStopsOnPositionZero := by
  unfold Obligations.CorruptAtStopsOnPositionZero
  intro s x
  rw [exec, execCorruptAt, if_pos rfl]

/-- Settles O30: every list-level form reads its operand first. -/
theorem listFormsStopWithoutFrontEnd : Obligations.ListFormsStopWithoutFrontEnd := by
  unfold Obligations.ListFormsStopWithoutFrontEnd
  intro s xs absent
  refine ⟨withOperand_absent absent, withOperand_absent absent, fun _ => withOperand_absent absent, fun p hp => ?_⟩
  rw [exec, execCorruptAt, if_neg hp, withOperand_absent absent]

end

/-! Lines: the part of a held value that each kind of source takes, and the step on a line by what its request decodes to
(70_reset_and_hazards.md R163, 20_memory.md R33, R36). -/

namespace Sys2Proof.Machine

variable {o : Output}

theorem Output.word?_eq_some_iff {w : Word7} :
    o.word? = some w ↔ o = .codeword w ∨ (∃ v f d, o = .decoded w v f d) ∨ o = .word w ∨ ∃ p, o = .wordAt w p := by
  cases o <;> simp [Output.word?]

theorem Output.word?_eq_none_iff :
    o.word? = none ↔ (∃ xs, o = .list xs) ∨ (∃ xs p, o = .listAt xs p) ∨ o = .invalidInput := by
  cases o <;> simp [Output.word?]

theorem Output.data?_eq_none_iff :
    o.data? = none ↔ (∃ w, o = .codeword w) ∨ (∃ w, o = .word w) ∨ (∃ w p, o = .wordAt w p) ∨ (∃ xs, o = .list xs) ∨
      (∃ xs p, o = .listAt xs p) ∨ o = .invalidInput := by
  cases o <;> simp [Output.data?]

theorem Output.list?_eq_some_iff {xs : List Symbol} : o.list? = some xs ↔ o = .list xs ∨ ∃ p, o = .listAt xs p := by
  cases o <;> simp [Output.list?]

theorem Output.list?_eq_none_iff :
    o.list? = none ↔ (∃ w, o = .codeword w) ∨ (∃ w v f d, o = .decoded w v f d) ∨ (∃ w, o = .word w) ∨
      (∃ w p, o = .wordAt w p) ∨ o = .invalidInput := by
  cases o <;> simp [Output.list?]

theorem Output.position?_eq_some_iff {p : Pos} :
    o.position? = some p ↔ (∃ w f d, o = .decoded w p f d) ∨ (∃ w, o = .wordAt w p) ∨ ∃ xs, o = .listAt xs (some p) := by
  cases o <;> simp [Output.position?]

theorem Output.position?_eq_none_iff :
    o.position? = none ↔ (∃ w, o = .codeword w) ∨ (∃ w, o = .word w) ∨ (∃ xs, o = .list xs) ∨ (∃ xs, o = .listAt xs none) ∨
      o = .invalidInput := by
  cases o <;> simp [Output.position?]

end Sys2Proof.Machine

namespace Sys2Proof

open Sys2Proof.Machine

variable {results : List Record} {k : Nat} {r : Record} {s : State} {l : Line} {ls : List Line}

theorem resolve_wordOf {w : Word7} (held : results[k]? = some r) (word : r.output.word? = some w) :
    (Source.wordOf k).resolve results = some (encodeOperand (.port w)) := by
  simp [Source.resolve, held, word, encodeOperand]

theorem resolve_dataOf {d : DataWord} (held : results[k]? = some r) (data : r.output.data? = some d) :
    (Source.dataOf k).resolve results = some (encodeOperand (.port d)) := by
  simp [Source.resolve, held, data, encodeOperand]

theorem resolve_listOf {xs : List Symbol} (held : results[k]? = some r) (list : r.output.list? = some xs) :
    (Source.listOf k).resolve results = some (.symbols xs) := by
  simp [Source.resolve, held, list]

theorem resolve_positionOf {p : Pos} (held : results[k]? = some r) (position : r.output.position? = some p) :
    (SecondSource.positionOf k).resolve results = some (.position p.toNat) := by
  simp [SecondSource.resolve, held, position]

theorem resolve_wordOf_eq_none (held : results[k]? = some r) (absent : r.output.word? = none) :
    (Source.wordOf k).resolve results = none := by
  simp [Source.resolve, held, absent]

theorem resolve_dataOf_eq_none (held : results[k]? = some r) (absent : r.output.data? = none) :
    (Source.dataOf k).resolve results = none := by
  simp [Source.resolve, held, absent]

theorem resolve_listOf_eq_none (held : results[k]? = some r) (absent : r.output.list? = none) :
    (Source.listOf k).resolve results = none := by
  simp [Source.resolve, held, absent]

theorem resolve_positionOf_eq_none (held : results[k]? = some r) (absent : r.output.position? = none) :
    (SecondSource.positionOf k).resolve results = none := by
  simp [SecondSource.resolve, held, absent]

/-- Of a result that is not there yet every part is missing. -/
theorem resolve_of_length_le (short : results.length ≤ k) :
    (Source.wordOf k).resolve results = none ∧ (Source.dataOf k).resolve results = none ∧
    (Source.listOf k).resolve results = none ∧ (SecondSource.positionOf k).resolve results = none := by
  simp [Source.resolve, SecondSource.resolve, List.getElem?_eq_none short]

theorem advance_eq (next : s.program = l :: ls) : s.advance = { s with program := ls } := by
  rw [State.advance, next, List.tail_cons]

/-- A step on a line whose operands exist and whose request decodes runs the operation. -/
theorem step_of_decode_ok {x : RawOperand} {y : SecondOperand} {i : Instr} (next : s.program = l :: ls)
    (hx : l.source.resolve s.results = some x) (hy : l.second.resolve s.results = some y)
    (read : decode ⟨l.row, x, y⟩ = .ok i) : step s = exec i { s with program := ls } := by
  simp only [step, fetch, next, fetchLine_eq hx hy, read, Fetched.ofDecoded, advance_eq next]

/-- A step on a line that gives what presents a well-formed operation runs that operation. -/
theorem step_of_encode {i : Instr} (wf : i.wf = true) (next : s.program = l :: ls) (row : l.row = (encode i).row)
    (hx : l.source.resolve s.results = some (encode i).operand)
    (hy : l.second.resolve s.results = some (encode i).second) : step s = exec i { s with program := ls } :=
  step_of_decode_ok next hx hy (by rw [row]; exact decode_encode wf)

/-- A step on an ENC line whose operand is no operand of the encoder stops by the name of the reason. -/
theorem step_enc_of_operand_bad {src : Source} {x : RawOperand} {why : DecodeError} (next : s.program = ⟨.enc, src, .absent⟩ :: ls)
    (given : src.resolve s.results = some x) (bad : decodeOperand 4 x = .bad why) : step s = .refused (.undecodable why) :=
  step_of_decode_bad next given rfl (by rw [decode_enc, bad]; rfl)

/-- The same on a line of the decoder or the channel, whose operand is a 7-bit word. -/
theorem step_word_of_operand_bad {src : Source} {x : RawOperand} {why : DecodeError}
    (given : src.resolve s.results = some x) (bad : decodeOperand 7 x = .bad why)
    (next : s.program = ⟨.dec, src, .absent⟩ :: ls ∨ (∃ rng, s.program = ⟨.corrupt, src, .random rng⟩ :: ls) ∨
      ∃ p, 1 ≤ p ∧ p ≤ 7 ∧ s.program = ⟨.corruptAt, src, .position p⟩ :: ls) : step s = .refused (.undecodable why) := by
  obtain dec | ⟨rng, corrupt⟩ | ⟨p, lo, hi, corruptAt⟩ := next
  · exact step_of_decode_bad dec given rfl (by rw [decode_dec, bad]; rfl)
  · exact step_of_decode_bad corrupt given rfl (by rw [decode_corrupt, bad]; rfl)
  · exact step_of_decode_bad corruptAt given rfl (by rw [decode_corruptAt, decodeCorruptAt_of_range x lo hi, bad]; rfl)

/-- A step on a CORRUPT_AT line stops on a position outside 1..7, whatever the word. -/
theorem step_of_position_outOfRange {x : RawOperand} {p : Nat} (next : s.program = l :: ls) (row : l.row = .corruptAt)
    (given : l.source.resolve s.results = some x) (position : l.second.resolve s.results = some (.position p))
    (outside : p = 0 ∨ 7 < p) : step s = .refused (.undecodable .positionOutOfRange) :=
  step_of_decode_bad next given position (by rw [row, decode_corruptAt, decodeCorruptAt_outOfRange x outside])

end Sys2Proof

section

open Sys2Proof Sys2Proof.Machine

/-- Settles O43: fetching decodes the line's request. -/
theorem stepRunsTheDecodedOperation : Obligations.StepRunsTheDecodedOperation := by
  unfold Obligations.StepRunsTheDecodedOperation
  exact fun _ _ _ _ _ _ => step_of_decode_ok

/-- Settles O44: fetching finds the end of the run. -/
theorem stepAfterTheLastOperation : Obligations.StepAfterTheLastOperation := by
  unfold Obligations.StepAfterTheLastOperation
  intro s ended
  simp only [step, fetch, ended]

/-- Settles O45: each source gives what presents the held value, so that the line's request is the encoding of the operation on
it. -/
theorem stepCarriesHeldValues : Obligations.StepCarriesHeldValues := by
  unfold Obligations.StepCarriesHeldValues
  refine ⟨fun s ls k r w held kind => ?word, fun s ls k i w v f d held next => ?data,
    fun s ls k r xs held kind => ?list, fun s ls k r p src x held kind hp given next => ?position⟩
  case word =>
    have given := resolve_wordOf held (Output.word?_eq_some_iff.2 kind)
    exact ⟨fun next => step_of_encode (i := .dec (.port w)) rfl next rfl given rfl,
      fun rng next => step_of_encode (i := .corrupt ⟨.port w, rng⟩) rfl next rfl given rfl,
      fun p hp next => step_of_encode (i := .corruptAt (.port w) p) (Instr.wf_corruptAt_iff.2 hp) next rfl given rfl⟩
  case data => exact step_of_encode (i := .enc (.port d)) rfl next rfl (resolve_dataOf held rfl) rfl
  case list =>
    have given := resolve_listOf held (Output.list?_eq_some_iff.2 kind)
    exact ⟨fun next => step_of_encode (i := .enc (.symbols xs)) rfl next rfl given rfl,
      fun next => step_of_encode (i := .dec (.symbols xs)) rfl next rfl given rfl,
      fun rng next => step_of_encode (i := .corrupt ⟨.symbols xs, rng⟩) rfl next rfl given rfl,
      fun p hp next => step_of_encode (i := .corruptAt (.symbols xs) p) (Instr.wf_corruptAt_iff.2 hp) next rfl given rfl⟩
  case position =>
    exact step_of_encode (i := .corruptAt x p) (Instr.wf_corruptAt_iff.2 hp) next rfl given
      (resolve_positionOf held (Output.position?_eq_some_iff.2 kind))

/-- Settles O46: a part of a result that does not exist, or does not have that part, resolves to nothing. -/
theorem stepStopsWithoutItsInput : Obligations.StepStopsWithoutItsInput := by
  unfold Obligations.StepStopsWithoutItsInput
  refine ⟨fun s l ls k next short named => step_of_noInput next ?missing,
    fun s l ls k r next held named => step_of_noInput next ?kind⟩
  case missing =>
    obtain ⟨noWord, noData, noList, noPosition⟩ := resolve_of_length_le short
    obtain word | data | list | position := named
    · exact .inl (word ▸ noWord)
    · exact .inl (data ▸ noData)
    · exact .inl (list ▸ noList)
    · exact .inr (position ▸ noPosition)
  case kind =>
    obtain ⟨word, kind⟩ | ⟨data, kind⟩ | ⟨list, kind⟩ | ⟨position, kind⟩ := named
    · exact .inl (word ▸ resolve_wordOf_eq_none held (Output.word?_eq_none_iff.2 kind))
    · exact .inl (data ▸ resolve_dataOf_eq_none held (Output.data?_eq_none_iff.2 kind))
    · exact .inl (list ▸ resolve_listOf_eq_none held (Output.list?_eq_none_iff.2 kind))
    · exact .inr (position ▸ resolve_positionOf_eq_none held (Output.position?_eq_none_iff.2 kind))

/-- Settles O47: reading the operand rejects the number, and reading the position rejects it before the word is read. -/
theorem stepStopsOnWhatCannotBeExpressed : Obligations.StepStopsOnWhatCannotBeExpressed := by
  unfold Obligations.StepStopsOnWhatCannotBeExpressed
  refine ⟨fun s ls w wide next => ?enc, fun s ls w wide next => ?word, fun s ls src x p outside given next => ?supplied,
    fun s ls src x k i w f d held given next => ?held⟩
  case enc => exact step_enc_of_operand_bad next rfl (decodeOperand_tooWide wide)
  case word => exact step_word_of_operand_bad rfl (decodeOperand_tooWide wide) next
  case supplied => exact step_of_position_outOfRange next rfl given rfl outside
  case held => exact step_of_position_outOfRange next rfl given (resolve_positionOf held rfl) (.inl rfl)

/-- Settles O54: a value, held or supplied, comes with its own width. -/
theorem stepStopsOnAnotherWidth : Obligations.StepStopsOnAnotherWidth := by
  unfold Obligations.StepStopsOnAnotherWidth
  refine ⟨fun s ls k i w v f d held next => ?data, fun s ls k r w held kind next => ?word,
    fun s ls width w other next => ?enc, fun s ls width w other next => ?supplied⟩
  case data => exact step_word_of_operand_bad (resolve_dataOf held rfl) (decodeOperand_otherWidth (by decide)) next
  case word =>
    exact step_enc_of_operand_bad next (resolve_wordOf held (Output.word?_eq_some_iff.2 kind))
      (decodeOperand_otherWidth (by decide))
  case enc => exact step_enc_of_operand_bad next rfl (decodeOperand_otherWidth other)
  case supplied => exact step_word_of_operand_bad rfl (decodeOperand_otherWidth other) next

/-- Settles O56: a row reads its first operand only beside its own second one. -/
theorem requestsNeedTheirOwnSecondOperand : Obligations.RequestsNeedTheirOwnSecondOperand := by
  unfold Obligations.RequestsNeedTheirOwnSecondOperand
  intro x
  refine ⟨fun y other => ?none, fun y other => ?position, fun y other => ?random⟩
  case none =>
    cases y with
    | absent => exact absurd rfl other
    | position p => exact ⟨rfl, rfl⟩
    | random rng => exact ⟨rfl, rfl⟩
  case position =>
    cases y with
    | absent => rfl
    | position p => exact absurd rfl (other p)
    | random rng => rfl
  case random =>
    cases y with
    | absent => rfl
    | position p => rfl
    | random rng => exact absurd rfl (other rng)

/-- Settles O49: four closed requests, read by evaluation. -/
theorem decodeReadsTheTablePatterns : Obligations.DecodeReadsTheTablePatterns := by
  unfold Obligations.DecodeReadsTheTablePatterns
  decide

end

/-! The code is linear: encoding, the syndrome and the flip over exclusive or (40_encoder.md R66, 41_decoder.md R84). -/

namespace Sys2Proof.Machine

theorem dataBit_xor (a b : DataWord) (i : Nat) : dataBit (a ^^^ b) i = (dataBit a i ^^ dataBit b i) := BitVec.getLsbD_xor

/-- The parity of three positions of an exclusive or is the exclusive or of the parities. -/
theorem parity3_xor (a1 a2 a3 b1 b2 b3 : Bit) :
    ((a1 ^^ b1) ^^ (a2 ^^ b2) ^^ (a3 ^^ b3)) = ((a1 ^^ a2 ^^ a3) ^^ (b1 ^^ b2 ^^ b3)) := by
  simp only [Bool.xor_assoc, Bool.xor_left_comm]

theorem encodeWord_xor (a b : DataWord) : encodeWord (a ^^^ b) = encodeWord a ^^^ encodeWord b := by
  obtain ⟨r1, r2, d1, r3, d2, d3, d4⟩ := codeBit_encodeWord (a ^^^ b)
  obtain ⟨ar1, ar2, ad1, ar3, ad2, ad3, ad4⟩ := codeBit_encodeWord a
  obtain ⟨br1, br2, bd1, br3, bd2, bd3, bd4⟩ := codeBit_encodeWord b
  refine word7_ext (forall_position ?p1 ?p2 ?p3 ?p4 ?p5 ?p6 ?p7) <;> rw [codeBit_xor]
  case p1 => rw [r1, ar1, br1]; simp only [parityR1, dataBit_xor, parity3_xor]
  case p2 => rw [r2, ar2, br2]; simp only [parityR2, dataBit_xor, parity3_xor]
  case p3 => rw [d1, ad1, bd1, dataBit_xor]
  case p4 => rw [r3, ar3, br3]; simp only [parityR3, dataBit_xor, parity3_xor]
  case p5 => rw [d2, ad2, bd2, dataBit_xor]
  case p6 => rw [d3, ad3, bd3, dataBit_xor]
  case p7 => rw [d4, ad4, bd4, dataBit_xor]

/-- Every data bit set sets every parity bit: each parity reads three of them. -/
theorem encodeWord_allOnes : encodeWord (BitVec.allOnes 4) = BitVec.allOnes 7 := by decide

/-- Complementing is the exclusive or with the codeword of all ones (43_properties.md R133). -/
theorem encodeWord_not (d : DataWord) : encodeWord (~~~d) = ~~~(encodeWord d) := by
  rw [← BitVec.xor_allOnes, encodeWord_xor, encodeWord_allOnes, BitVec.xor_allOnes]

theorem encodeWord_injective : Function.Injective encodeWord := by
  intro a b same
  rw [← extractData_encodeWord a, same, extractData_encodeWord]

/-- The exclusive or of a word with a flipped one is flipped there. -/
theorem flip_xor (a b : Word7) (p : Pos) : flip (a ^^^ b) p = a ^^^ flip b p := by
  refine word7_ext fun q lo hi => ?_
  simp only [codeBit_flip_eq_xor _ _ lo hi, codeBit_xor, Bool.xor_assoc]

/-- The bits of a position's number count for the error pattern exactly where it flips the position. -/
theorem getLsbD_flippedNumber (e : Word7) (p i : Nat) :
    (flippedNumber e p).getLsbD i = (codeBit e p && (BitVec.ofNat 3 p).getLsbD i) := by
  unfold flippedNumber
  cases codeBit e p <;> simp

theorem getLsbD_positionXor (e : Word7) (i : Nat) :
    (positionXor e).getLsbD i = ((codeBit e 1 && (1#3).getLsbD i) ^^ (codeBit e 2 && (2#3).getLsbD i) ^^
      (codeBit e 3 && (3#3).getLsbD i) ^^ (codeBit e 4 && (4#3).getLsbD i) ^^ (codeBit e 5 && (5#3).getLsbD i) ^^
      (codeBit e 6 && (6#3).getLsbD i) ^^ (codeBit e 7 && (7#3).getLsbD i)) := by
  simp only [positionXor, BitVec.getLsbD_xor, getLsbD_flippedNumber, Bool.xor_assoc]

/-- Each check reads the positions whose number has its bit set, so as one number the checks are the exclusive or of the numbers of
the set positions (41_decoder.md R84). -/
theorem syndromeValue_eq_positionXor (e : Word7) : syndromeValue e = positionXor e := by
  obtain ⟨h1, h2, h3⟩ := getLsbD_syndromeValue e
  apply pos_ext
  · rw [h1, getLsbD_positionXor]; simp [syndromeS1]
  · rw [h2, getLsbD_positionXor]; simp [syndromeS2]
  · rw [h3, getLsbD_positionXor]; simp [syndromeS3]

/-- The exclusive or of two numbers that are counted or not, position by position. -/
theorem flippedNumber_xor (a b : Word7) (p : Nat) : flippedNumber (a ^^^ b) p = flippedNumber a p ^^^ flippedNumber b p := by
  unfold flippedNumber
  rw [codeBit_xor]
  cases codeBit a p <;> cases codeBit b p <;> simp

theorem syndromeValue_xor (a b : Word7) : syndromeValue (a ^^^ b) = syndromeValue a ^^^ syndromeValue b := by
  simp only [syndromeValue_eq_positionXor, positionXor, flippedNumber_xor]
  ac_rfl

/-- The decoder's position depends on the error pattern alone (41_decoder.md R84). -/
theorem syndromeValue_encodeWord_xor (d : DataWord) (e : Word7) : syndromeValue (encodeWord d ^^^ e) = syndromeValue e := by
  rw [syndromeValue_xor, syndromeValue_encodeWord]
  exact BitVec.zero_xor

/-- The correction passes the codeword sent through and works on the error pattern. -/
theorem correctWord_encodeWord_xor (d : DataWord) (e : Word7) :
    correctWord (encodeWord d ^^^ e) = encodeWord d ^^^ correctWord e := by
  rw [correctWord_eq_flip, syndromeValue_encodeWord_xor, flip_xor, ← correctWord_eq_flip]

end Sys2Proof.Machine

/-! Weights and distances: of codewords, and after a flip (43_properties.md R126, R127). -/

namespace Sys2Proof.Machine

theorem distance_xor_left (a b : Word7) : distance (a ^^^ b) a = weight b := by
  rw [distance, BitVec.xor_comm a b, BitVec.xor_assoc, BitVec.xor_self, BitVec.xor_zero]

/-- Every codeword but 0 has weight 3 or more (40_encoder.md R68). -/
theorem three_le_weight_encodeWord {d : DataWord} (h : d ≠ 0) : 3 ≤ weight (encodeWord d) := by
  revert d; decide

theorem three_le_weight_of_codeword {w : Word7} (codeword : syndromeValue w = 0) (h : w ≠ 0) : 3 ≤ weight w := by
  obtain ⟨d, rfl⟩ := (syndromeValue_eq_zero_iff_isCodeword w).1 codeword
  exact three_le_weight_encodeWord fun zero => h (by rw [zero, encodeWord_zero])

/-- The codewords of two DataWords are as far apart as their exclusive or, a codeword, is from 0 (43_properties.md R126). -/
theorem three_le_distance_encodeWord {a b : DataWord} (h : a ≠ b) : 3 ≤ distance (encodeWord a) (encodeWord b) := by
  rw [distance, ← encodeWord_xor]
  exact three_le_weight_encodeWord fun zero => h (BitVec.xor_eq_zero_iff.1 zero)

/-- The weight of a flip, bit by bit. -/
theorem weight_flip_eq (e : Word7) (p : Pos) :
    weight (flip e p) = (codeBit e 1 ^^ decide (p.toNat = 1)).toNat + (codeBit e 2 ^^ decide (p.toNat = 2)).toNat +
      (codeBit e 3 ^^ decide (p.toNat = 3)).toNat + (codeBit e 4 ^^ decide (p.toNat = 4)).toNat +
      (codeBit e 5 ^^ decide (p.toNat = 5)).toNat + (codeBit e 6 ^^ decide (p.toNat = 6)).toNat +
      (codeBit e 7 ^^ decide (p.toNat = 7)).toNat := by
  have bit : ∀ q, 1 ≤ q → q ≤ 7 → codeBit (flip e p) q = (codeBit e q ^^ decide (p.toNat = q)) :=
    fun _ => codeBit_flip_eq_xor e p
  rw [weight, bit 1, bit 2, bit 3, bit 4, bit 5, bit 6, bit 7] <;> decide

/-- Flipping a position that holds 0 adds one to the weight. -/
theorem weight_flip_of_false {e : Word7} {p : Pos} (hp : p ≠ 0) (zero : codeBit e p.toNat = false) :
    weight (flip e p) = weight e + 1 := by
  obtain ⟨lo, hi⟩ := toNat_position hp
  rw [weight_flip_eq, weight]
  generalize p.toNat = n at *
  interval_cases n <;> simp [zero] <;> omega

/-- Flipping a position that holds 1 takes one from the weight: flipped back, it adds one. -/
theorem weight_flip_of_true {e : Word7} {p : Pos} (hp : p ≠ 0) (one : codeBit e p.toNat = true) :
    weight e = weight (flip e p) + 1 := by
  obtain ⟨lo, hi⟩ := toNat_position hp
  have zero : codeBit (flip e p) p.toNat = false := by simp [codeBit_flip_eq_xor e p lo hi, one]
  rw [← weight_flip_of_false hp zero, flip_flip]

theorem exists_codeBit_of_ne_zero {e : Word7} (h : e ≠ 0) : ∃ p : Pos, p ≠ 0 ∧ codeBit e p.toNat = true := by
  by_contra no_position
  push Not at no_position
  refine h (word7_ext fun q lo hi => ?_)
  have number : (BitVec.ofNat 3 q).toNat = q := Nat.mod_eq_of_lt (by omega)
  have zero := no_position (BitVec.ofNat 3 q) fun same => by
    rw [same] at number
    exact absurd number (Nat.ne_of_lt lo)
  rw [number] at zero
  simpa [codeBit] using zero

theorem weight_eq_zero_iff {e : Word7} : weight e = 0 ↔ e = 0 := by
  constructor
  · intro zero
    by_contra h
    obtain ⟨p, hp, one⟩ := exists_codeBit_of_ne_zero h
    have := weight_flip_of_true hp one
    omega
  · rintro rfl
    decide

theorem distance_self (a : Word7) : distance a a = 0 := by
  rw [distance, BitVec.xor_self]
  exact weight_eq_zero_iff.2 rfl

/-- A word at distance 1 is a flip. -/
theorem exists_flip_of_distance_eq_one {c w : Word7} (near : distance c w = 1) : ∃ p : Pos, w = flip c p := by
  rw [distance] at near
  have differ : c ^^^ w ≠ 0 := fun same => by simp [weight_eq_zero_iff.2 same] at near
  obtain ⟨p, hp, one⟩ := exists_codeBit_of_ne_zero differ
  have emptied : weight (flip (c ^^^ w) p) = 0 := by
    have := weight_flip_of_true hp one
    omega
  have same : c = flip w p := BitVec.xor_eq_zero_iff.1 ((flip_xor c w p).symm.trans (weight_eq_zero_iff.1 emptied))
  exact ⟨p, by rw [same, flip_flip]⟩

/-- No other codeword is at distance 1: a flip is a codeword only if it flips the position that the syndrome names
(43_properties.md R127). -/
theorem eq_correctWord_of_distance_eq_one {c w : Word7} (codeword : syndromeValue w = 0) (near : distance c w = 1) :
    w = correctWord c := by
  obtain ⟨p, rfl⟩ := exists_flip_of_distance_eq_one near
  rw [syndromeValue_flip] at codeword
  rw [correctWord_eq_flip, BitVec.xor_eq_zero_iff.1 codeword]

/-- The correction changes the weight by one at most. -/
theorem weight_le_weight_correctWord (e : Word7) : weight e ≤ weight (correctWord e) + 1 := by
  by_cases h : syndromeValue e = 0
  · rw [correctWord_of_eq_zero h]
    omega
  · rw [correctWord_eq_flip]
    cases bit : codeBit e (syndromeValue e).toNat with
    | false => rw [weight_flip_of_false h bit]; omega
    | true => exact (weight_flip_of_true h bit).le

/-- Two or more errors are corrected to a codeword other than 0 (41_decoder.md R96). -/
theorem three_le_weight_correctWord {e : Word7} (two : 2 ≤ weight e) : 3 ≤ weight (correctWord e) := by
  refine three_le_weight_of_codeword (syndromeValue_correctWord e) fun zero => ?_
  have bound := weight_le_weight_correctWord e
  rw [weight_eq_zero_iff.2 zero] at bound
  omega

/-- For two or three errors the syndrome names no position in error: flipped back, too few would be left for a codeword. -/
theorem codeBit_syndromeValue_of_weight {e : Word7} (two : 2 ≤ weight e) (three : weight e ≤ 3) (named : syndromeValue e ≠ 0) :
    codeBit e (syndromeValue e).toNat = false ∧ weight (correctWord e) = weight e + 1 := by
  have far := three_le_weight_correctWord two
  rw [correctWord_eq_flip] at far ⊢
  have bit : codeBit e (syndromeValue e).toNat = false := by
    by_contra one
    have := weight_flip_of_true named (Bool.not_eq_false _ ▸ one)
    omega
  exact ⟨bit, weight_flip_of_false named bit⟩

/-- No two positions have the number of none, so a word of weight 2 is no codeword. -/
theorem syndromeValue_ne_zero_of_weight_eq_two {e : Word7} (two : weight e = 2) : syndromeValue e ≠ 0 := by
  intro zero
  have far := three_le_weight_correctWord two.ge
  rw [correctWord_of_eq_zero zero] at far
  omega

end Sys2Proof.Machine

/-! The decoder's ports on a codeword and on a codeword with two or more positions flipped (41_decoder.md R88, R96). -/

namespace Sys2Proof.Machine

variable {s : State}

/-- The sixteen codewords. -/
def codebook : List Word7 := (List.finRange 16).map fun d => encodeWord (BitVec.ofFin d)

theorem nodup_codebook : codebook.Nodup :=
  (List.nodup_finRange 16).map fun _ _ same => congrArg BitVec.toFin (encodeWord_injective same)

theorem mem_codebook_iff {w : Word7} : w ∈ codebook ↔ ∃ s : State, s.codewordOut = w := by
  simp only [codebook, List.mem_map, List.mem_finRange, true_and]
  constructor
  · rintro ⟨d, rfl⟩
    exact ⟨State.reset.driveData (BitVec.ofFin d), rfl⟩
  · rintro ⟨s, rfl⟩
    exact ⟨s.dataIn.toFin, rfl⟩

/-- A codeword received, read on the four output ports. -/
theorem State.decoderPorts_of_codeword (received : syndromeValue s.receivedIn = 0) :
    s.correctedOut = s.receivedIn ∧ s.errorPosOut = 0 ∧ s.errorFlagOut = 0 ∧ s.dataOut = extractData s.receivedIn := by
  rw [State.correctedOut_eq, State.errorPosOut_eq, State.errorFlagOut_eq, State.dataOut_eq, correctWord_of_eq_zero received]
  exact ⟨rfl, received, errorFlag_of_eq_zero received, rfl⟩

/-- DEC on a codeword completes, and the ports show it with no error and its data. -/
theorem exec_dec_port_codeword (s : State) {c : Word7} (codeword : syndromeValue c = 0) :
    ∃ t, exec (.dec (.port c)) s = .next t ∧
      t.correctedOut = c ∧ t.errorPosOut = 0 ∧ t.errorFlagOut = 0 ∧ t.dataOut = extractData c :=
  ⟨_, exec_dec_port c, State.decoderPorts_of_codeword codeword⟩

/-- A word and its flip, the flip given first. -/
theorem differExactlyAt_of_flip (c : Word7) {p : Pos} (hp : p ≠ 0) : DifferExactlyAt (flip c p) c p := by
  have back := differExactlyAt_flip (flip c p) hp
  rwa [flip_flip] at back

/-- A flipped parity position leaves the data positions (41_decoder.md R93). -/
theorem extractData_flip_encodeWord (d : DataWord) {p : Pos} (parity : p.toNat ∉ [3, 5, 6, 7]) :
    extractData (flip (encodeWord d) p) = d := by
  rw [← extractData_correctWord_of_not_data (by rwa [syndromeValue_flip_encodeWord]), correctWord_flip_encodeWord,
    extractData_encodeWord]

theorem isCodeword_correctWord (c : Word7) : IsCodeword (correctWord c) :=
  (syndromeValue_eq_zero_iff_isCodeword _).1 (syndromeValue_correctWord c)

theorem errorFlag_eq_ite (value : Pos) : errorFlag value = if value = 0 then 0 else 1 := ite_not ..

/-- The corrected word is as far from the codeword sent as the correction of the error pattern is from 0. -/
theorem distance_correctWord_encodeWord_xor (d : DataWord) (e : Word7) :
    distance (correctWord (encodeWord d ^^^ e)) (encodeWord d) = weight (correctWord e) := by
  rw [correctWord_encodeWord_xor, distance_xor_left]

/-- Two or more errors lead to another codeword than the one sent (41_decoder.md R96). -/
theorem correctWord_encodeWord_xor_ne {d : DataWord} {e : Word7} (two : 2 ≤ weight e) :
    correctWord (encodeWord d ^^^ e) ≠ encodeWord d := by
  intro same
  have apart := distance_correctWord_encodeWord_xor d e
  have far := three_le_weight_correctWord two
  rw [same, distance_self] at apart
  omega

/-- The data of the corrected word is not the DataWord sent: it would encode to the codeword sent. -/
theorem extractData_correctWord_encodeWord_xor_ne {d : DataWord} {e : Word7} (two : 2 ≤ weight e) :
    extractData (correctWord (encodeWord d ^^^ e)) ≠ d := by
  intro same
  have back := encodeWord_extractData_of_syndromeValue_eq_zero (syndromeValue_correctWord (encodeWord d ^^^ e))
  rw [same] at back
  exact correctWord_encodeWord_xor_ne two back.symm

end Sys2Proof.Machine

section

open Sys2Proof Sys2Proof.Machine

/-- Settles O3: a codeword fails no check, and is the codeword of its own data positions. -/
theorem codewordOutHasEvenParity : Obligations.CodewordOutHasEvenParity := by
  unfold Obligations.CodewordOutHasEvenParity
  intro s
  obtain ⟨s1, s2, s3⟩ := (syndromeValue_eq_zero_iff _).1 (syndromeValue_encodeWord s.dataIn)
  obtain ⟨r1, r2, -, r3, -, -, -⟩ := codeBit_encodeWord s.dataIn
  rw [State.codewordOut, extractData_encodeWord]
  exact ⟨s1, s2, s3, r1.symm, r2.symm, r3.symm⟩

/-- Settles O4: every bit of the codeword is an exclusive or of data bits. -/
theorem encodeIsLinear : Obligations.EncodeIsLinear := by
  unfold Obligations.EncodeIsLinear
  constructor
  · intro s s' s'' sum
    rw [State.codewordOut, sum, encodeWord_xor, State.codewordOut, State.codewordOut]
  · intro s zero
    rw [State.codewordOut, zero, encodeWord_zero]

/-- Settles O5, by linearity and the codeword of 1111. -/
theorem encodeComplements : Obligations.EncodeComplements := by
  unfold Obligations.EncodeComplements
  intro s s' complement
  rw [State.codewordOut, complement, encodeWord_not, State.codewordOut]

/-- Settles O6: the data positions tell the DataWord, so the sixteen DataWords have sixteen codewords. -/
theorem encodeIsInjectiveWithSixteenCodewords : Obligations.EncodeIsInjectiveWithSixteenCodewords := by
  unfold Obligations.EncodeIsInjectiveWithSixteenCodewords
  exact ⟨fun _ _ same => encodeWord_injective same, codebook, rfl, nodup_codebook, fun _ => mem_codebook_iff⟩

/-- Settles O7: by linearity a distance is the weight of a codeword; 1000 gives one of weight 3. -/
theorem codewordsDifferInThreePositions : Obligations.CodewordsDifferInThreePositions := by
  unfold Obligations.CodewordsDifferInThreePositions
  exact ⟨fun _ _ => three_le_distance_encodeWord, State.reset, State.reset.driveData 8, by decide, by decide⟩

/-- Settles O15: the guarantee for a single error, and the correction changes no data position. -/
theorem parityErrorIsCorrectedAndLeavesData : Obligations.ParityErrorIsCorrectedAndLeavesData := by
  unfold Obligations.ParityErrorIsCorrectedAndLeavesData
  intro s d p parity
  have hp : p ≠ 0 := by obtain rfl | rfl | rfl := parity <;> decide
  have no_data : p.toNat ∉ [3, 5, 6, 7] := by obtain rfl | rfl | rfl := parity <;> decide
  refine ⟨_, exec_dec_port _, ?_⟩
  obtain ⟨corrected, position, flag, data⟩ := State.decoderPorts_of_flipped_codeword
    (s := (s.driveReceived (flip (encodeWord d) p)).record _ _) d hp rfl
  refine ⟨position, flag, corrected, ?differ, ?raw, data⟩
  case differ => rw [corrected]; exact differExactlyAt_of_flip _ hp
  case raw => exact data.trans (extractData_flip_encodeWord d no_data).symm

/-- Settles O17: the corrected word fails no check, so it is the codeword of its data. -/
theorem reencodingTheDataGivesTheCorrectedWord : Obligations.ReencodingTheDataGivesTheCorrectedWord := by
  unfold Obligations.ReencodingTheDataGivesTheCorrectedWord
  exact fun s c => ⟨_, _, exec_dec_port c, isCodeword_correctWord c, exec_enc_port _,
    encodeWord_extractData_of_syndromeValue_eq_zero (syndromeValue_correctWord c)⟩

/-- Settles O18: the corrected word fails no check. -/
theorem decodeIsIdempotent : Obligations.DecodeIsIdempotent := by
  unfold Obligations.DecodeIsIdempotent
  intro s c
  obtain ⟨u, decoded, ports⟩ := exec_dec_port_codeword _ (syndromeValue_correctWord c)
  exact ⟨_, u, exec_dec_port c, decoded, ports⟩

/-- Settles O33: what the encoder shows fails no check and carries the DataWord. -/
theorem decodeAfterEncodeReportsNoError : Obligations.DecodeAfterEncodeReportsNoError := by
  unfold Obligations.DecodeAfterEncodeReportsNoError
  intro s d
  obtain ⟨u, decoded, corrected, position, flag, data⟩ := exec_dec_port_codeword _ (syndromeValue_encodeWord d)
  exact ⟨_, u, exec_enc_port d, decoded, corrected, position, flag, data.trans (extractData_encodeWord d)⟩

/-- Settles O36, by linearity of the syndrome. -/
theorem syndromeDependsOnlyOnTheErrorPattern : Obligations.SyndromeDependsOnlyOnTheErrorPattern := by
  unfold Obligations.SyndromeDependsOnlyOnTheErrorPattern
  intro s d e
  have pattern := syndromeValue_encodeWord_xor d e
  exact ⟨_, _, exec_dec_port _, exec_dec_port e, pattern, pattern.trans (syndromeValue_eq_positionXor e)⟩

/-- Settles O37: the codeword sent passes through the correction, so all is said of the error pattern, whose correction is a
codeword other than 0 and so has weight 3 or more. -/
theorem twoOrMoreErrorsAreMiscorrected : Obligations.TwoOrMoreErrorsAreMiscorrected := by
  unfold Obligations.TwoOrMoreErrorsAreMiscorrected
  intro s d e two
  have value := syndromeValue_encodeWord_xor d e
  rw [← syndromeValue_eq_positionXor]
  refine ⟨_, _, rfl, exec_dec_port _, value, ?flag, ?corrected, isCodeword_correctWord _, correctWord_encodeWord_xor_ne two,
    extractData_correctWord_encodeWord_xor_ne two, fun weight_two => ?two, fun weight_three zero => ?three,
    fun weight_three named => ?four⟩
  case flag => rw [← value]; exact errorFlag_eq_ite _
  case corrected => rw [← value]; rfl
  case two =>
    have named := syndromeValue_ne_zero_of_weight_eq_two weight_two
    obtain ⟨bit, heavier⟩ := codeBit_syndromeValue_of_weight two (by omega) named
    exact ⟨named, bit, (distance_correctWord_encodeWord_xor d e).trans (by omega)⟩
  case three =>
    exact (distance_correctWord_encodeWord_xor d e).trans (by rw [correctWord_of_eq_zero zero, weight_three])
  case four =>
    obtain ⟨bit, heavier⟩ := codeBit_syndromeValue_of_weight two (by omega) named
    exact ⟨bit, (distance_correctWord_encodeWord_xor d e).trans (by omega)⟩

/-- Settles O38: the received word is a codeword, or the correction flips one position and no other flip gives a codeword. -/
theorem decoderFindsTheNearestCodeword : Obligations.DecoderFindsTheNearestCodeword := by
  unfold Obligations.DecoderFindsTheNearestCodeword
  intro s
  have exactly := syndromeValue_eq_zero_iff_isCodeword s.receivedIn
  refine ⟨exactly.symm, fun codeword => ?codeword, fun error => ?error⟩
  case codeword =>
    obtain ⟨corrected, -, flag, -⟩ := State.decoderPorts_of_codeword (exactly.2 codeword)
    exact ⟨flag, corrected⟩
  case error =>
    have named : syndromeValue s.receivedIn ≠ 0 := mt exactly.1 error
    have flipped : s.correctedOut = flip s.receivedIn s.errorPosOut := correctWord_eq_flip s.receivedIn
    refine ⟨errorFlag_of_ne_zero named, isCodeword_correctWord _, ?near, ?differ, fun w codeword near => ?only⟩
    case near => rw [flipped]; exact distance_flip _ named
    case differ => rw [flipped]; exact differExactlyAt_flip _ named
    case only =>
      exact eq_correctWord_of_distance_eq_one ((syndromeValue_eq_zero_iff_isCodeword w).2 codeword) near

/-- Settles O2, row by row. -/
theorem encodeFunctionTable : Obligations.EncodeFunctionTable := by
  unfold Obligations.EncodeFunctionTable
  intro s row listed
  have entry : encodeWord row.1 = row.2.1 ∧ weight row.2.1 = row.2.2 := by revert row; decide
  obtain ⟨codeword, heavy⟩ := entry
  rw [exec_enc_port, codeword]
  exact ⟨rfl, heavy⟩

/-- Settles O13: the correction is the flip of the position that the syndrome names. -/
theorem correctedOutPositionByPosition : Obligations.CorrectedOutPositionByPosition := by
  unfold Obligations.CorrectedOutPositionByPosition
  exact fun s c => ⟨_, exec_dec_port c, fun _ => codeBit_correctWord c⟩

/-- Settles O42: State.reset is one closed state. -/
theorem resetHoldsNothing : Obligations.ResetHoldsNothing := by
  unfold Obligations.ResetHoldsNothing
  decide

end

/-! The list-level forms on valid lists, and the source of CORRUPT's position (60_exceptions.md R143, 42_channel_env.md R117). -/

namespace Sys2Proof.Machine

/-- The injected number k stands for position k + 1 (log entry 8). -/
theorem toNat_positionOf (k : Fin 7) : (positionOf k).toNat = k.val + 1 := Nat.mod_eq_of_lt (by omega)

end Sys2Proof.Machine

section

open Sys2Proof Sys2Proof.Machine

/-- Settles O23: an injected source draws its own number. -/
theorem corruptFlipsTheInjectedPosition : Obligations.CorruptFlipsTheInjectedPosition := by
  unfold Obligations.CorruptFlipsTheInjectedPosition
  exact fun s c k => ⟨_, toNat_positionOf k, exec_corrupt_port c (.injected k)⟩

/-- Settles O55: the draw is a function of the source, and every position is the draw of some source. -/
theorem corruptPositionComesFromItsSource : Obligations.CorruptPositionComesFromItsSource := by
  unfold Obligations.CorruptPositionComesFromItsSource
  refine ⟨fun rng => ⟨_, drawPosition_ne_zero rng, fun _ c => exec_corrupt_port c rng⟩, fun p hp => ?_⟩
  obtain ⟨rng, rfl⟩ := drawPosition_surjective hp
  exact ⟨rng, fun _ c => exec_corrupt_port c rng⟩

/-- Settles O26: four binary symbols are read as their packing; any other list is a bad call. -/
theorem encodeListForm : Obligations.EncodeListForm := by
  unfold Obligations.EncodeListForm
  refine ⟨fun s b1 b2 b3 b4 front => ?valid, fun s xs front bad => ?invalid, fun s d => ?port⟩
  case valid => exact ⟨_, _, _, rfl, exec_enc_port _, rfl, exec_enc_list front (readSymbols_four ..)⟩
  case invalid => exact (badCall_iff_exec front rfl).1 (badCall_enc_iff.2 bad)
  case port => exact ⟨_, _, exec_enc_port d, State.lastAnswer_record ..⟩

/-- Settles O27: seven binary symbols are read as their packing; any other list is a bad call. -/
theorem decodeListForm : Obligations.DecodeListForm := by
  unfold Obligations.DecodeListForm
  refine ⟨fun s b1 b2 b3 b4 b5 b6 b7 front => ?valid, fun s xs front bad => ?invalid, fun s c => ?port⟩
  case valid => exact ⟨_, _, _, rfl, exec_dec_port _, rfl, exec_dec_list front (readSymbols_seven ..)⟩
  case invalid => exact (badCall_iff_exec front rfl).1 (badCall_dec_iff.2 bad)
  case port => exact ⟨_, _, _, _, _, exec_dec_port c, State.lastAnswer_record ..⟩

/-- Settles O29: the list of a word is read as that word. -/
theorem corruptListForms : Obligations.CorruptListForms := by
  unfold Obligations.CorruptListForms
  intro s c front
  exact ⟨fun p hp => exec_corruptAt_list hp front (readSymbols_unpack7 c),
    fun rng => ⟨_, drawPosition_ne_zero rng, exec_corrupt_list rng front (readSymbols_unpack7 c)⟩⟩

end
